-- ==== Sys2Proof/Word.lean ====
section
/-! DEFINITION. The words of the block's interface: codes, positions, the input event record, the decoder states
that serve as decode context. -/

namespace Sys2Proof

/-- A 16-bit command word, the key of the command table (R11 `UInt16`, R61). -/
abbrev CmdWord := BitVec 16

/-- `kind[2:0]`, the opcode of an event (R80, R81). -/
abbrev KindCode := BitVec 3

/-- The 4-bit decode key, `(S << 3) | kind` (R83). -/
abbrev Key := BitVec 4

/-- The two decoder states (R34). As decode context `S`, FindReset is 0 and ReadingBits is 1 (R83). -/
inductive DecoderState where
  | findReset
  | readingBits
  deriving DecidableEq, Repr

/-- The polarity of an edge (R15). -/
inductive Polarity where
  | rising
  | falling
  deriving DecidableEq, Repr

/-- The meaning of a kind code: the five events of R81, and `reserved` for the codes 101, 110 and 111. -/
inductive EventKind where
  | rise
  | fall
  | eos
  | setRate
  | start
  | reserved
  deriving DecidableEq, Repr

/-- One input event record `EVT` (R80). A field that the kind does not have is ignored. -/
structure Event where
  kind : KindCode
  /-- the sample position, "integer ≥ 0", unbounded (R80, R86, D7) -/
  pos  : Nat
  /-- the sample rate in hertz (R80) -/
  rate : Nat
  deriving DecidableEq, Repr

end Sys2Proof
end

