-- ==== Sys2Proof/Syntax.lean ====
section
/-! DEFINITION. The instructions: one constructor per row of the opcode table. -/

namespace Sys2Proof

/-- The rows of the opcode table (R81, R83). `FR` rows are met in FindReset, `RB` rows in ReadingBits. -/
inductive Instr where
  /-- `RISE.FR`, key 0_000 (R120). -/
  | riseFr (pos : Nat)
  /-- `FALL.FR`, key 0_001 (R122). -/
  | fallFr (pos : Nat)
  /-- `RISE.RB`, key 1_000 (R151). -/
  | riseRb (pos : Nat)
  /-- `FALL.RB`, key 1_001 (R145). -/
  | fallRb (pos : Nat)
  /-- `EOS`, key s_010 (R170). -/
  | eos
  /-- `SET_RATE`, key s_011 (R110). -/
  | setRate (rate : Nat)
  /-- `START`, key s_100 (R112). -/
  | start
  /-- `RESERVED`, keys s_101, s_110, s_111 (R82); the operand is the kind code itself. -/
  | reserved (code : KindCode)
  deriving DecidableEq, Repr

end Sys2Proof
end

