-- ==== Sys2Proof/WellFormed.lean ====
section
/-! DEFINITION. Which instruction terms stand for an event that can be written down. -/

namespace Sys2Proof

/-- An instruction term has an encoding. Positions and rates are unbounded (R80), a rate of 0 included: SET_RATE with
rate 0 is an event, which the block refuses (R85). The only check is that a reserved kind code is one of 101, 110
and 111 (R82). -/
abbrev WellFormed : Instr → Prop
  | .riseFr _ => True
  | .fallFr _ => True
  | .riseRb _ => True
  | .fallRb _ => True
  | .eos => True
  | .setRate _ => True
  | .start => True
  | .reserved code => 5 ≤ code.toNat

end Sys2Proof
end

