-- ==== Sys2Proof/Decode.lean ====
section
/-! DEFINITION. Decoding an event in its context (R81, R83), and the encoder. -/

namespace Sys2Proof

/-- The kind codes (R81): 000 RISE, 001 FALL, 010 EOS, 011 SET_RATE, 100 START, the others reserved. -/
def kindOf (code : KindCode) : EventKind :=
  match code.toNat with
  | 0 => .rise
  | 1 => .fall
  | 2 => .eos
  | 3 => .setRate
  | 4 => .start
  | _ => .reserved

/-- The context bit S of a decoder state (R83). -/
def contextBit : DecoderState → BitVec 1
  | .findReset => 0#1
  | .readingBits => 1#1

/-- The decoder state that a context bit stands for (R83). -/
def contextOfBit (b : BitVec 1) : DecoderState :=
  if b = 0#1 then .findReset else .readingBits

/-- The decode key `(S << 3) | kind` (R83). -/
def decodeKey (S : DecoderState) (code : KindCode) : Key :=
  contextBit S ++ code

/-- The instruction of a key and the event's operands: the key table of R83. S changes the meaning of RISE and FALL
only. Total: every one of the sixteen keys has a row, and the reserved ones are rejected by the row `RESERVED`. -/
def decodeAt (key : Key) (pos : Nat) (rate : Nat) : Instr :=
  match contextOfBit (key.extractLsb' 3 1), kindOf (key.extractLsb' 0 3) with
  | .findReset, .rise => .riseFr pos
  | .findReset, .fall => .fallFr pos
  | .readingBits, .rise => .riseRb pos
  | .readingBits, .fall => .fallRb pos
  | _, .eos => .eos
  | _, .setRate => .setRate rate
  | _, .start => .start
  | _, .reserved => .reserved (key.extractLsb' 0 3)

/-- The instruction that an event is when the decoder is in state `S` (R83, R95). -/
def decode (S : DecoderState) (ev : Event) : Instr :=
  decodeAt (decodeKey S ev.kind) ev.pos ev.rate

/-- The kind of an instruction. -/
def kindOfInstr : Instr → EventKind
  | .riseFr _ => .rise
  | .fallFr _ => .fall
  | .riseRb _ => .rise
  | .fallRb _ => .fall
  | .eos => .eos
  | .setRate _ => .setRate
  | .start => .start
  | .reserved _ => .reserved

/-- The event record of an instruction (R80, R81). A field that the kind does not have is written 0
(DESIGN CHOICE, log entry 10; safe: decoding ignores it). -/
def encode : Instr → Event
  | .riseFr pos => { kind := 0b000#3, pos := pos, rate := 0 }
  | .fallFr pos => { kind := 0b001#3, pos := pos, rate := 0 }
  | .riseRb pos => { kind := 0b000#3, pos := pos, rate := 0 }
  | .fallRb pos => { kind := 0b001#3, pos := pos, rate := 0 }
  | .eos => { kind := 0b010#3, pos := 0, rate := 0 }
  | .setRate rate => { kind := 0b011#3, pos := 0, rate := rate }
  | .start => { kind := 0b100#3, pos := 0, rate := 0 }
  | .reserved code => { kind := code, pos := 0, rate := 0 }

/-- The contexts in which an event of this instruction is this instruction (R83): one decoder state for the four edge
rows, both for the rest. -/
def inContext : Instr → DecoderState → Bool
  | .riseFr _, S => S == .findReset
  | .fallFr _, S => S == .findReset
  | .riseRb _, S => S == .readingBits
  | .fallRb _, S => S == .readingBits
  | .eos, _ => true
  | .setRate _, _ => true
  | .start, _ => true
  | .reserved _, _ => true

/-- An event with the fields that its kind does not have (R80) set to 0: two events with equal normal forms are the
same event to the block. -/
def Event.normal (ev : Event) : Event :=
  match kindOf ev.kind with
  | .rise => { ev with rate := 0 }
  | .fall => { ev with rate := 0 }
  | .eos => { ev with pos := 0, rate := 0 }
  | .setRate => { ev with pos := 0 }
  | .start => { ev with pos := 0, rate := 0 }
  | .reserved => { ev with pos := 0, rate := 0 }

/-- The event whose key is written in bits 3 to 0 of a table word, with operands of zeros (log entry 9). -/
def eventOfTableWord (w : Nat) : Event :=
  { kind := (BitVec.ofNat 4 w).extractLsb' 0 3, pos := 0, rate := 0 }

/-- The decode context written in bit 3 of a table word. -/
def contextOfTableWord (w : Nat) : DecoderState :=
  contextOfBit ((BitVec.ofNat 4 w).extractLsb' 3 1)

/-- The instruction of a word numbered as the opcode table numbers it: the key in bits 3 to 0. The operands have no
bits in the table, so they are zero. A word with a bit above the key is no row. -/
def decodeTableWord (nbits w : Nat) : Option Instr :=
  if 4 ≤ nbits ∧ w < 16 then
    some (decode (contextOfTableWord w) (eventOfTableWord w))
  else none

end Sys2Proof
end

