-- ==== Sys2Proof/Config.lean ====
section
/-! DEFINITION. What the spec leaves open, as constants without a body: nothing can be proved of their values. -/

namespace Sys2Proof

/-- FREE VALUE. The part of `CMD_TABLE` that the source does not give (R63, R66, D18): `some t` where the code has an
entry with text `t`, `none` where the code is unmapped. It is consulted only at codes that R64 does not list. -/
opaque Config.unlistedEntry : CmdWord → Option String

/-- FREE VALUE. The earlier, overridden texts of the codes 0x8044 and 0x8045 (R65, I5, N4). The later definition
wins, so no output ever shows one. -/
opaque Config.overriddenText : CmdWord → String

end Sys2Proof
end

