-- ==== Sys2Proof/Machine/CommandTable.lean ====
section
/-! DEFINITION. The command table, the block's one address space (R60 to R66). -/

namespace Sys2Proof.Machine

/-- The default text of an unmapped code (R66, C1). -/
def defaultText : String := "????"

/-- The definitions of the table's source in table order, as far as the spec gives them: first the earlier
definitions of 0x8044 and 0x8045, whose texts are not given (R65, a free value), then the rows of R64. -/
def tableDefinitions : List (CmdWord × String) :=
  [ (0x8044, Config.overriddenText 0x8044),
    (0x8045, Config.overriddenText 0x8045),
    (0x1000, "System ON"),
    (0x1080, "System OFF"),
    (0x8044, "CD Stop"),
    (0x8045, "CD Play/Pause"),
    (0x8084, "Source: FM"),
    (0x857b, "Seek Rev"),
    (0x85fb, "Seek Fwd") ]

/-- The last definition of a code in table order: "the later definition in table order silently overrides the
earlier one" (R65). -/
def lastDefinition (w : CmdWord) : List (CmdWord × String) → Option String
  | [] => none
  | (code, text) :: rest =>
    match lastDefinition w rest with
    | some later => some later
    | none => if code = w then some text else none

/-- `CMD_TABLE` (R61, R63): a total map from 16-bit codes to texts. A code the source does not list is open: it has
either a text that is not given or the default (log entry 6). -/
def cmdTable (w : CmdWord) : String :=
  match lastDefinition w tableDefinitions with
  | some text => text
  | none => (Config.unlistedEntry w).getD defaultText

/-- `CmdRead(w)`, the block's only memory access; it has no side effect (R62, R69, R70). -/
def cmdRead (w : CmdWord) : String := cmdTable w

end Sys2Proof.Machine
end

