-- ==== Sys2Proof/Machine/State.lean ====
section
/-! DEFINITION. The state of the block as plain data, its value after a block reset, and the reasons a step can
stop. -/

namespace Sys2Proof.Machine

/-- The lifecycle of a decode session (R33). -/
inductive Phase where
  /-- Constructed, not yet started. -/
  | idle
  /-- Decoding. -/
  | run
  /-- The source is exhausted. -/
  | done
  /-- The session was aborted. -/
  | fault
  deriving DecidableEq, Repr

/-- The causes the register `fault` can hold (R42, R181, R182: there is one). -/
inductive FaultCause where
  | missingSampleRate
  deriving DecidableEq, Repr

/-- The causes the mark `refused` can hold (R186). -/
inductive RefusalCause where
  | reservedEventKind
  | phaseViolation
  | orderViolation
  | invalidSampleRate
  | eventAfterEnd
  deriving DecidableEq, Repr

/-- The three output channels (R90). -/
inductive Level where
  | bit
  | word
  | command
  deriving DecidableEq, Repr

/-- One output record `ANN` (R90), with the interval `[startSample, endSample)`. -/
structure Annotation where
  startSample : Nat
  endSample   : Nat
  level       : Level
  text        : String
  deriving DecidableEq, Repr

/-- What the acceptance table (R180) says of one event kind in one phase. -/
inductive Acceptance where
  | accepted
  | refused (c : RefusalCause)
  | stuck
  deriving DecidableEq, Repr

/-- The state record of R30, and the input port: the events delivered and not yet consumed, and the index of the next
one, which "plays the part of a program counter" (R32; log entry 1). -/
structure State where
  /-- R33 -/
  phase        : Phase
  /-- hertz; R35 -/
  rate         : Option Nat
  /-- R34; the decode context S of R83 -/
  state        : DecoderState
  /-- R36 -/
  lastRising   : Option Nat
  /-- R37 -/
  lastFalling  : Option Nat
  /-- R38 -/
  commandStart : Nat
  /-- R39 -/
  wordStart    : Nat
  /-- the bit accumulator; R40 -/
  content      : CmdWord
  /-- R41 -/
  bitCount     : Nat
  /-- R42 -/
  fault        : Option FaultCause
  /-- R43 -/
  refused      : Option RefusalCause
  /-- R44 -/
  lastPos      : Option Nat
  /-- every annotation emitted since the block reset, in order; R45 -/
  out          : List Annotation
  /-- the events waiting at the input port, oldest first; R32, R80 -/
  input        : List Event
  /-- how many events the block has accepted; R32 -/
  eventIndex   : Nat
  deriving DecidableEq, Repr

/-- The state after a block reset: the values of R50. The input port has no event waiting and the index is 0
(DESIGN CHOICE, log entry 1; unsafe only for claims about where the index starts). -/
def State.reset : State where
  phase        := .idle
  rate         := none
  state        := .findReset
  lastRising   := none
  lastFalling  := none
  commandStart := 0
  wordStart    := 0
  content      := 0
  bitCount     := 0
  fault        := none
  refused      := none
  lastPos      := none
  out          := []
  input        := []
  eventIndex   := 0

/-- Why the block has no step, other than a refusal (R12 `stuck`). Each is a stuck state of the spec, not a further
fault of the hardware: the hardware's one fault is recorded in the field `fault` (R182). All are safe: the model
stops, and nothing can be proved of what follows. -/
inductive Fault where
  /-- Raised by `step` when no event is present in IDLE or RUN (R172, R197, I18). Safe. -/
  | waitingForEvent
  /-- Raised by `step` when no event is present in DONE: the run is over (R173). Safe. -/
  | sessionOver
  /-- Raised by `step` and by every instruction in phase FAULT (R188). Safe. -/
  | stuckInFault
  deriving DecidableEq, Repr

/-- Why an instruction has no meaning. All are safe: the model stops. -/
inductive Refusal where
  /-- Raised only by the dispatcher, for an instruction the model has not reached. Safe. -/
  | notModelled (mnemonic : String)
  /-- Raised by `step` and by every instruction once the refusal mark is set: the state "admits no further step"
  (R95, R185). Safe. -/
  | runRefused (c : RefusalCause)
  deriving DecidableEq, Repr

/-- The outcome of a step of this machine. -/
abbrev Result := Host.Outcome State Fault Refusal

end Sys2Proof.Machine
end

