-- ==== Sys2Proof/Machine/Operands.lean ====
section
/-! DEFINITION. Operands: durations in samples and their exact comparison with a time (R13, R14, R84). -/

namespace Sys2Proof.Machine

/-- The timing constants, in microseconds (R8). -/
def T_RESET : Nat := 4000
/-- R8 -/
def T0_LO : Nat := 3000
/-- R8 -/
def T0_HI : Nat := 5000
/-- R8 -/
def T1_LO : Nat := 6000
/-- R8 -/
def T1_HI : Nat := 8000

/-- Bits in a word (R9). -/
def WORD_BITS : Nat := 16

/-- The sample period in microseconds, an exact rational (R13). It is not stored (R35). -/
def samplePeriodUs (rate : Nat) : Rat := 1000000 / (rate : Rat)

/-- The duration of `d` samples in microseconds (R13). -/
def durUs (rate d : Nat) : Rat := (d : Rat) * samplePeriodUs rate

/-- `dur_us(d) > T` over natural numbers (R14). -/
def longer (rate d T : Nat) : Bool := decide (d * 1000000 > T * rate)

/-- `dur_us(d) < T` over natural numbers (R14). -/
def shorter (rate d T : Nat) : Bool := decide (d * 1000000 < T * rate)

/-- The measured operand of a FALL: the samples from an earlier edge to this one (R84). -/
def samplesSince (earlier pos : Nat) : Nat := pos - earlier

/-- The rate operand of SET_RATE must be at least 1 (R85). -/
def validRate (rate : Nat) : Bool := decide (1 ≤ rate)

/-- The order contract on edge positions (R187): greater than the last accepted one. -/
def inOrder (lastPos : Option Nat) (pos : Nat) : Bool :=
  match lastPos with
  | none => true
  | some p => decide (p < pos)

end Sys2Proof.Machine
end

