-- ==== Sys2Proof/Machine/Flags.lean ====
section
/-! DEFINITION. The block has no condition flags (R46). These are the conditions its events compute: the reset test,
the bit classification, and the wait mask. -/

namespace Sys2Proof.Machine

/-- The reset test on a high duration of `d` samples (R121). -/
def isReset (rate d : Nat) : Bool := longer rate d T_RESET

/-- The classification of an interval of `d` samples (R141): `false` is bit 0, `true` is bit 1. -/
def classify (rate d : Nat) : Option Bool :=
  if longer rate d T0_LO && shorter rate d T0_HI then some false
  else if longer rate d T1_LO && shorter rate d T1_HI then some true
  else none

/-- The rising edge of the reset pulse that a FALL at `pos` completes, if it completes one (R122, R123). With no
rate (a state that no run reaches in RUN, R113) no reset is detected (DESIGN CHOICE, log entry 7; safe). -/
def resetStart (s : State) (pos : Nat) : Option Nat :=
  match s.rate, s.lastRising with
  | some rate, some r => if isReset rate (samplesSince r pos) then some r else none
  | _, _ => none

/-- The bit that a FALL at `pos` in ReadingBits delivers, with the position of the falling edge before it (R140,
R141). With no rate or no earlier falling edge (states that no run reaches in ReadingBits, R37, R113) there is no
interval and no bit (DESIGN CHOICE, log entry 7; safe). -/
def bitAt (s : State) (pos : Nat) : Option (Nat × Bool) :=
  match s.rate, s.lastFalling with
  | some rate, some f => (classify rate (samplesSince f pos)).map fun v => (f, v)
  | _, _ => none

/-- The wait mask: the polarities the decoder asks for (R51). It is a function of the decoder state. -/
def waitMask : DecoderState → List Polarity
  | .findReset => [.rising, .falling]
  | .readingBits => [.falling]

/-- The polarity of an edge event (R81). -/
def polarityOf : EventKind → Option Polarity
  | .rise => some .rising
  | .fall => some .falling
  | .eos => none
  | .setRate => none
  | .start => none
  | .reserved => none

end Sys2Proof.Machine
end

