-- ==== Sys2Proof/Machine/Text.lean ====
section
/-! DEFINITION. The texts and codes of the output and of the outcomes (R90 to R92, R181, R186, R97). -/

namespace Sys2Proof.Machine

/-- A lowercase hexadecimal digit (R92). -/
def hexDigit (n : BitVec 4) : Char :=
  ("0123456789abcdef".toList).getD n.toNat '0'

/-- The Word text (R92): `0x` and four lowercase digits, the most significant first. -/
def hex4 (w : CmdWord) : String :=
  "0x" ++ String.ofList
    [hexDigit (w.extractLsb' 12 4), hexDigit (w.extractLsb' 8 4),
     hexDigit (w.extractLsb' 4 4), hexDigit (w.extractLsb' 0 4)]

/-- The value of a lowercase hexadecimal digit. -/
def hexValue (c : Char) : Option Nat :=
  ("0123456789abcdef".toList).findIdx? (· == c)

/-- The number that a Word text stands for: the `0x` prefix, then digits to base 16 (the round trip of R92). -/
def parseHex (t : String) : Option Nat :=
  match t.toList with
  | '0' :: 'x' :: digits =>
    digits.foldl (fun acc c => acc.bind fun a => (hexValue c).map fun v => a * 16 + v) (some 0)
  | _ => none

/-- The text of a reset annotation (R91). -/
def resetText : String := "RESET"

/-- The text of a bit annotation (R91). -/
def bitText (v : Bool) : String := if v then "1" else "0"

/-- The level codes (R90). Code 3 is never emitted. -/
def levelCode : Level → BitVec 2
  | .bit => 0
  | .word => 1
  | .command => 2

/-- The fault code (R181). -/
def faultCode : FaultCause → Nat
  | .missingSampleRate => 1

/-- The refusal codes (R186). -/
def refusalCode : RefusalCause → Nat
  | .reservedEventKind => 16
  | .phaseViolation => 17
  | .orderViolation => 18
  | .invalidSampleRate => 19
  | .eventAfterEnd => 20

/-- The name of a level in the notation of R97. -/
def levelName : Level → String
  | .bit => "Bit"
  | .word => "Word"
  | .command => "Command"

/-- An annotation record in the notation of R97, for example `Bit [0,50) "RESET"`. -/
def Annotation.written (a : Annotation) : String :=
  levelName a.level ++ " [" ++ toString a.startSample ++ "," ++ toString a.endSample ++ ") \"" ++ a.text ++ "\""

end Sys2Proof.Machine
end

