-- ==== Sys2Proof/Machine/Ops.lean ====
section
/-! DEFINITION. The named operations over the state: emission, acceptance, refusal, fault entry, the frame registers,
and the host's actions. -/

namespace Sys2Proof.Machine

/-- `emit` (R12, R45): append one record to the output port. The sink always accepts it (D28). -/
def State.emit (s : State) (a : Annotation) : State :=
  { s with out := s.out ++ [a] }

/-- Accepting an event takes it from the input port and advances the index by exactly one (R32). -/
def State.consume (s : State) : State :=
  { s with input := s.input.tail, eventIndex := s.eventIndex + 1 }

/-- Every accepted edge is the new last position (R44, R95). -/
def State.noteEdge (s : State) (pos : Nat) : State :=
  { s with lastPos := some pos }

/-- REFUSING an event (R185, R190): the mark is set and no other field changes. The event is not accepted, so it is
not consumed (DEDUCED from R32 and R185, log entry 1; safe: no step follows). -/
def State.markRefused (s : State) (c : RefusalCause) : State :=
  { s with refused := some c }

/-- TAKING THE FAULT (R181, R190): the cause is recorded, the phase becomes FAULT, nothing else is written. There is
no handler, no vector, no saved register (R190) and no return (R191): only `State.blockReset` leaves FAULT. -/
def State.raiseFault (s : State) (c : FaultCause) : State :=
  { s with fault := some c, phase := .fault }

/-- `phase <- p` (R33; EOS and START). -/
def State.toPhase (s : State) (p : Phase) : State :=
  { s with phase := p }

/-- `rate <- some r` (R35, R110). -/
def State.putRate (s : State) (r : Nat) : State :=
  { s with rate := some r }

/-- `lastRising <- some pos` (R36, R120). -/
def State.noteRising (s : State) (pos : Nat) : State :=
  { s with lastRising := some pos }

/-- `lastFalling <- some pos` (R37, R125, R152). -/
def State.noteFalling (s : State) (pos : Nat) : State :=
  { s with lastFalling := some pos }

/-- A detected reset (R124): its annotation, the frame registers, and entry to ReadingBits. -/
def State.beginFrame (s : State) (r pos : Nat) : State :=
  { s.emit { startSample := r, endSample := pos, level := .bit, text := resetText } with
    commandStart := r
    wordStart    := pos
    lastFalling  := some pos
    content      := 0
    bitCount     := 0
    state        := .readingBits }

/-- A classified bit `v` of the interval `[f, pos)` (R144, R146): shifted in at bit 0, counted, annotated. -/
def State.appendBit (s : State) (f pos : Nat) (v : Bool) : State :=
  { s with
    content  := s.content * 2 + (if v then 1 else 0)
    bitCount := s.bitCount + 1 }.emit
      { startSample := f, endSample := pos, level := .bit, text := bitText v }

/-- A completed word (R148): the Word annotation, the Command annotation, and the return to FindReset. The accumulator
and the count keep their values. -/
def State.completeWord (s : State) (pos : Nat) : State :=
  { (s.emit { startSample := s.wordStart, endSample := pos, level := .word, text := hex4 s.content }).emit
      { startSample := s.commandStart, endSample := pos, level := .command, text := cmdRead s.content } with
    state := .findReset }

/-- The acceptance table (R180), by the checks of R95 in their order: stuck, reserved kind, event after the end, phase
violation (R189). -/
def acceptance (p : Phase) (k : EventKind) : Acceptance :=
  if p = .fault then .stuck
  else if k = .reserved then .refused .reservedEventKind
  else if p = .done then .refused .eventAfterEnd
  else if p = .idle ∧ ¬ (k = .setRate ∨ k = .start) then .refused .phaseViolation
  else if p = .run ∧ ¬ (k = .rise ∨ k = .fall ∨ k = .eos) then .refused .phaseViolation
  else .accepted

/-- The checks every event passes first (R95): a marked refusal or phase FAULT is stuck (R188), an event the phase
does not accept is refused, an accepted event is consumed and its rule `body` runs. -/
def accept (k : EventKind) (s : State) (body : State → Result) : Result :=
  match s.refused with
  | some c => .refused (.runRefused c)
  | none =>
    match acceptance s.phase k with
    | .stuck => .fault .stuckInFault
    | .refused c => .next (s.markRefused c)
    | .accepted => body s.consume

/-- The checks of an edge event (R95): those of every event, then the order of positions (R187); an edge in order
becomes the last position, whatever its rule then does. -/
def acceptEdge (k : EventKind) (pos : Nat) (s : State) (body : State → Result) : Result :=
  accept k s fun t =>
    if inOrder s.lastPos pos then body (t.noteEdge pos) else .next (s.markRefused .orderViolation)

/-- No event is present: the block has no step and keeps every field (R172, R197, I18; log entry 5). -/
def noEvent (s : State) : Result :=
  match s.refused with
  | some c => .refused (.runRefused c)
  | none =>
    match s.phase with
    | .idle => .fault .waitingForEvent
    | .run => .fault .waitingForEvent
    | .done => .fault .sessionOver
    | .fault => .fault .stuckInFault

/-- HOST ACTION: a block reset (R210), outside the event stream. Every field of R50 takes its reset value, whatever the
phase. Events already delivered stay at the port and the index starts again (DESIGN CHOICE, log entry 8; unsafe). -/
def State.blockReset (s : State) : State :=
  { State.reset with input := s.input }

/-- HOST ACTION: deliver one event (R72, R80, R193). Events are consumed in the order delivered. -/
def State.deliver (s : State) (ev : Event) : State :=
  { s with input := s.input ++ [ev] }

/-- The phase in which an event kind is accepted (R180), if it is accepted in one. -/
def acceptingPhase : EventKind → Option Phase
  | .rise => some .run
  | .fall => some .run
  | .eos => some .run
  | .setRate => some .idle
  | .start => some .idle
  | .reserved => none

/-- The decoder state in which a table word is fetched: that of its context bit for an edge, the present one for a
kind that means the same in both states (R83). -/
def fetchContext (s : State) (w : Nat) : DecoderState :=
  match polarityOf (kindOf (eventOfTableWord w).kind) with
  | some _ => contextOfTableWord w
  | none => s.state

/-- Place the event of a table word as the next event, in the decode context of its key and in the phase that accepts
it (log entry 9). -/
def placeEvent (s : State) (w : Nat) : State :=
  { s with
    input := eventOfTableWord w :: s.input
    state := fetchContext s w
    phase := (acceptingPhase (kindOf (eventOfTableWord w).kind)).getD s.phase }

end Sys2Proof.Machine
end

