-- ==== Sys2Proof/Machine/Configure.lean ====
section
/-! DEFINITION. Configuration and decode start: SET_RATE and START (R110, R112). -/

namespace Sys2Proof.Machine

/-- SET_RATE (R110): the last value written before START wins. A rate of 0 is refused (R85). -/
def execSetRate (rate : Nat) (s : State) : Result :=
  accept .setRate s fun t =>
    if validRate rate then .next (t.putRate rate) else .next (s.markRefused .invalidSampleRate)

/-- START (R112): with a rate the phase becomes RUN; without one the fault MissingSampleRate is taken (R181). -/
def execStart (s : State) : Result :=
  accept .start s fun t =>
    match t.rate with
    | none => .next (t.raiseFault .missingSampleRate)
    | some _ => .next (t.toPhase .run)

end Sys2Proof.Machine
end

