-- ==== Sys2Proof/Machine/FindReset.lean ====
section
/-! DEFINITION. FindReset: RISE and FALL (R120 to R127). -/

namespace Sys2Proof.Machine

/-- RISE in FindReset (R120): record the rising edge. -/
def execRiseFr (pos : Nat) (s : State) : Result :=
  acceptEdge .rise pos s fun t => .next (t.noteRising pos)

/-- FALL in FindReset (R122): a reset pulse begins a frame (R124); otherwise, and with no rising edge yet (R123), only
`lastFalling` moves (R125). -/
def execFallFr (pos : Nat) (s : State) : Result :=
  acceptEdge .fall pos s fun t =>
    match resetStart t pos with
    | some r => .next (t.beginFrame r pos)
    | none => .next (t.noteFalling pos)

end Sys2Proof.Machine
end

