-- ==== Sys2Proof/Machine/ReadingBits.lean ====
section
/-! DEFINITION. ReadingBits: RISE and FALL (R140 to R152). -/

namespace Sys2Proof.Machine

/-- RISE in ReadingBits (R151): the edge is not delivered to the decoder; only its order is checked. -/
def execRiseRb (pos : Nat) (s : State) : Result :=
  acceptEdge .rise pos s fun t => .next t

/-- The word is complete when the count is 16 (R147); the test stands after the update of `lastFalling`, as in R145. -/
def State.finishIfComplete (s : State) (pos : Nat) : State :=
  if s.bitCount = WORD_BITS then s.completeWord pos else s

/-- FALL in ReadingBits (R145): classify the interval, append a classified bit (R144), move `lastFalling`
unconditionally (R152), and complete the word on the 16th bit (R147, R148). -/
def execFallRb (pos : Nat) (s : State) : Result :=
  acceptEdge .fall pos s fun t =>
    match bitAt t pos with
    | some (f, v) => .next (((t.appendBit f pos v).noteFalling pos).finishIfComplete pos)
    | none => .next ((t.noteFalling pos).finishIfComplete pos)

end Sys2Proof.Machine
end

