-- ==== Sys2Proof/Machine/Session.lean ====
section
/-! DEFINITION. End of stream (R170) and the reserved kinds (R82). -/

namespace Sys2Proof.Machine

/-- EOS (R170): the session ends, with no annotation, in either decoder state and with any number of bits read. -/
def execEos (s : State) : Result :=
  accept .eos s fun t => .next (t.toPhase .done)

/-- A reserved kind (R82): refused with ReservedEventKind in IDLE, RUN and DONE, stuck in FAULT. No phase accepts it,
so its rule never runs. -/
def execReserved (_code : KindCode) (s : State) : Result :=
  accept .reserved s fun _ => .next (s.markRefused .reservedEventKind)

end Sys2Proof.Machine
end

