-- ==== Sys2Proof/Machine/Dispatch.lean ====
section
/-! DEFINITION. The dispatcher: one arm per row of the opcode table (R83, R95). -/

namespace Sys2Proof.Machine

def exec (i : Instr) (s : State) : Host.Outcome State Fault Refusal :=
  match i with
  | .riseFr pos => Sys2Proof.Machine.execRiseFr pos s
  | .fallFr pos => Sys2Proof.Machine.execFallFr pos s
  | .riseRb pos => Sys2Proof.Machine.execRiseRb pos s
  | .fallRb pos => Sys2Proof.Machine.execFallRb pos s
  | .eos => Sys2Proof.Machine.execEos s
  | .setRate rate => Sys2Proof.Machine.execSetRate rate s
  | .start => Sys2Proof.Machine.execStart s
  | .reserved code => Sys2Proof.Machine.execReserved code s

end Sys2Proof.Machine
end

