-- ==== Sys2Proof/Machine/Step.lean ====
section
/-! DEFINITION. One step: the next event at the input port, decoded in the present decoder state, runs (R32, R95). -/

namespace Sys2Proof.Machine

/-- The step (R95). The meaning of the event takes it from the port if it accepts it. With no event there is no step
(R172). -/
def step (s : State) : Host.Outcome State Fault Refusal :=
  match s.input with
  | [] => noEvent s
  | ev :: _ => exec (decode s.state ev) s

/-- The state with the instruction of a table word as its next event, its operands zero, in the decode context of its
key and in the phase that accepts it (log entry 9). -/
def State.withFetchWord (s : State) (_nbits w : Nat) : State := placeEvent s w

end Sys2Proof.Machine
end

