-- ==== Sys2Proof/Safety.lean ====
section
/-! DEFINITION. What counts as a good end and a sound state, in the terms the statements use. -/

namespace Sys2Proof.Machine

/-- A run ends well exactly here (R173). -/
def GoodEnd (s : State) : Prop :=
  s.phase = .done ∧ s.fault = none ∧ s.refused = none

/-- The block can take an edge at `pos` (R95): no refusal is marked, the phase is RUN, and the position is greater than
that of the last accepted edge. -/
def EdgeReady (s : State) (pos : Nat) : Prop :=
  s.refused = none ∧ s.phase = .run ∧ ∀ p, s.lastPos = some p → p < pos

/-- The interval of `d` samples lies in the band of bit `v` (R8, R141), in whole numbers (R14). -/
def InBand (rate d : Nat) (v : Bool) : Prop :=
  (if v then 6000 else 3000) * rate < d * 1000000 ∧ d * 1000000 < (if v then 8000 else 5000) * rate

/-- The invariants of R49, with the facts of R35, R37, R84, R90 and R113 that hold beside them. -/
structure Inv (s : State) : Prop where
  /-- R35 -/
  rate_pos : ∀ r, s.rate = some r → 1 ≤ r
  /-- R113 -/
  run_has_rate : s.phase = .run → s.rate ≠ none
  /-- R42, R181 -/
  fault_iff : s.phase = .fault ↔ s.fault ≠ none
  /-- Before START no edge has been accepted and nothing emitted (R112, R180). -/
  idle_clean : s.phase = .idle → s.lastPos = none ∧ s.state = .findReset ∧ s.out = []
  /-- R49 -/
  count_le : s.bitCount ≤ 16
  /-- R49, R146 -/
  content_lt : s.content.toNat < 2 ^ s.bitCount
  /-- R49: a frame is being read -/
  reading : s.state = .readingBits →
    s.bitCount ≤ 15 ∧ s.commandStart < s.wordStart ∧ ∃ p, s.lastFalling = some p ∧ s.wordStart ≤ p
  /-- R49 -/
  rising_le : ∀ r, s.lastRising = some r → ∃ p, s.lastPos = some p ∧ r ≤ p
  /-- R84: "the subtracted position was accepted earlier" -/
  falling_le : ∀ f, s.lastFalling = some f → ∃ p, s.lastPos = some p ∧ f ≤ p
  /-- R90: "Every record this block emits in fact has start < end" -/
  spans : ∀ a ∈ s.out, a.startSample < a.endSample

/-- How one record changes the bits of the frame being read off the output: a RESET begins a frame, a bit joins it. -/
def noteRecord (bits : List Bool) (a : Annotation) : List Bool :=
  match a.level with
  | .bit => if a.text = "RESET" then [] else bits ++ [decide (a.text = "1")]
  | .word => bits
  | .command => bits

/-- The bits classified since the last RESET record, in time order, read off the output alone. -/
def frameBits (out : List Annotation) : List Bool :=
  out.foldl noteRecord []

/-- The word of a list of bits, the first bit the most significant (R67). -/
def wordOfBits (bits : List Bool) : Nat :=
  bits.foldl (fun acc b => acc * 2 + (if b then 1 else 0)) 0

/-- The accumulator is what the output says: it holds the bits since the last RESET, and their count (R40, R41, R67). -/
def AccumulatorMatchesOutput (s : State) : Prop :=
  (frameBits s.out).length = s.bitCount ∧ wordOfBits (frameBits s.out) = s.content.toNat

/-- Every Word record and every Command record of the output follows exactly 16 bits since the last RESET, and shows the
word they make, the first bit the most significant (R67, R92, R93, R149). -/
def WordsAreWhole (out : List Annotation) : Prop :=
  ∀ before a after, out = before ++ a :: after →
    (a.level = .word → (frameBits before).length = 16 ∧
      a.text = hex4 (BitVec.ofNat 16 (wordOfBits (frameBits before)))) ∧
    (a.level = .command → (frameBits before).length = 16 ∧
      a.text = cmdRead (BitVec.ofNat 16 (wordOfBits (frameBits before))))

/-- The effect of a function on the next state of an outcome; a stop stays as it is. -/
def mapNext (f : State → State) : Result → Result
  | .next s => .next (f s)
  | .fault r => .fault r
  | .refused r => .refused r

/-- The state with earlier records put before its output. -/
def withEarlierOut (earlier : List Annotation) (s : State) : State :=
  { s with out := earlier ++ s.out }

/-- The block after a block reset with a sequence of events at its port. -/
def sessionOf (events : List Event) : State :=
  { State.reset with input := events }

end Sys2Proof.Machine
end

