-- ==== Sys2Proof/Certificates/Slice0/Obligations.lean ====
section
/-! DEFINITION. The statements for the provers. A result is stated as an equality with the whole next state, so it says
what the instruction leaves unchanged: every field the record update does not name. -/

open Sys2Proof Sys2Proof.Machine

/-! ## Reset and the step -/

/-- R50, R210: after a block reset, whatever the state before, every field of R50 has its listed value; `State.reset` is
such a state. -/
def Obligations.BlockResetGivesListedValues : Prop :=
  ∀ s : State, ∀ t ∈ [State.reset, s.blockReset],
    t.phase = .idle ∧ t.rate = none ∧ t.state = .findReset ∧ t.lastRising = none ∧ t.lastFalling = none ∧
    t.commandStart = 0 ∧ t.wordStart = 0 ∧ t.content = 0 ∧ t.bitCount = 0 ∧ t.fault = none ∧ t.refused = none ∧
    t.lastPos = none ∧ t.out = []

/-- R95: with an event at the port, a step is the instruction that the event decodes to in the present decoder state;
the instruction itself takes the event from the port (R32). -/
def Obligations.StepRunsDecodedEvent : Prop :=
  ∀ (s : State) (ev : Event) (rest : List Event), s.input = ev :: rest → step s = exec (decode s.state ev) s

/-- R172, R197, I18: with no event present there is no step; the named stops are the model's (log entry 5). -/
def Obligations.NoEventNoStep : Prop :=
  ∀ s : State, s.input = [] → s.refused = none →
    ((s.phase = .idle ∨ s.phase = .run) → step s = .fault .waitingForEvent) ∧
    (s.phase = .done → step s = .fault .sessionOver) ∧
    (s.phase = .fault → step s = .fault .stuckInFault)

/-- R32, R185: a step that answers a next state either accepts its event, taking it from the port and advancing the
index by exactly one, or marks a refusal and changes nothing else. (The refused event as a next state: log entry 3; that
it stays at the port: log entry 1; both DEDUCED.) -/
def Obligations.StepConsumesExactlyAcceptedEvents : Prop :=
  ∀ s s' : State, step s = .next s' →
    (s'.refused = none ∧ s'.input = s.input.tail ∧ s'.eventIndex = s.eventIndex + 1) ∨
    (s.refused = none ∧ ∃ c, s' = { s with refused := some c })

/-- R72: events delivered later do not change what the next event does. -/
def Obligations.LaterEventsDoNotMatter : Prop :=
  ∀ (s : State) (ev : Event), s.input ≠ [] →
    step (s.deliver ev) = mapNext (fun t => t.deliver ev) (step s)

/-! ## Encoding -/

/-- R83: the key is the context bit in bit 3 and the kind below it, and the key table gives each event its instruction. S
changes the meaning of RISE and FALL only. -/
def Obligations.KeyTableDecodes : Prop :=
  (∀ code : KindCode, (decodeKey .findReset code).toNat = code.toNat ∧
    (decodeKey .readingBits code).toNat = 8 + code.toNat) ∧
  ∀ (S : DecoderState) (pos : Nat) (rate : Nat),
    decode .findReset ⟨0b000#3, pos, rate⟩ = .riseFr pos ∧
    decode .findReset ⟨0b001#3, pos, rate⟩ = .fallFr pos ∧
    decode .readingBits ⟨0b000#3, pos, rate⟩ = .riseRb pos ∧
    decode .readingBits ⟨0b001#3, pos, rate⟩ = .fallRb pos ∧
    decode S ⟨0b010#3, pos, rate⟩ = .eos ∧
    decode S ⟨0b011#3, pos, rate⟩ = .setRate rate ∧
    decode S ⟨0b100#3, pos, rate⟩ = .start ∧
    (∀ code ∈ [0b101#3, 0b110#3, 0b111#3], decode S ⟨code, pos, rate⟩ = .reserved code)

/-- Decoding the encoding of a well-formed instruction, in a context where it can stand, gives it back with its
operand. -/
def Obligations.DecodeEncodeRoundTrip : Prop :=
  ∀ (i : Instr) (S : DecoderState), WellFormed i → inContext i S = true → decode S (encode i) = i

/-- The other direction: every event decodes to a well-formed instruction of its context, and encoding that gives the
event back, up to the fields its kind does not have (R80). -/
def Obligations.EncodeDecodeGivesNormalForm : Prop :=
  ∀ (S : DecoderState) (ev : Event),
    WellFormed (decode S ev) ∧ inContext (decode S ev) S = true ∧ encode (decode S ev) = ev.normal

/-- A table word is placed so that the next step runs the instruction it decodes to (model's choice, log entry 9). -/
def Obligations.FetchWordRunsNext : Prop :=
  ∀ (s : State) (nbits w : Nat), 4 ≤ nbits → w < 16 →
    ∃ i, decodeTableWord nbits w = some i ∧ step (s.withFetchWord nbits w) = exec i (s.withFetchWord nbits w)

/-! ## Configuration -/

/-- R85, R110: SET_RATE in IDLE with a rate of at least 1 writes `rate`, over an earlier one too, and nothing else; with
rate 0 it is refused with InvalidSampleRate, and in RUN with PhaseViolation: only the mark is set (R185). That a refused
event leads to a next state is the model's reading (log entry 3, DEDUCED). -/
def Obligations.SetRateWritesRate : Prop :=
  ∀ (s : State) (rate : Nat), s.refused = none →
    (s.phase = .idle → 1 ≤ rate → exec (.setRate rate) s =
      .next { s with rate := some rate, input := s.input.tail, eventIndex := s.eventIndex + 1 }) ∧
    (s.phase = .idle → rate = 0 → exec (.setRate rate) s = .next { s with refused := some .invalidSampleRate }) ∧
    (s.phase = .run → exec (.setRate rate) s = .next { s with refused := some .phaseViolation })

/-- R112: START in IDLE with a rate enters RUN and writes nothing else; a second START is refused, which in the model is
a next state with only the mark set (log entry 3, DEDUCED). -/
def Obligations.StartWithRateEntersRun : Prop :=
  ∀ (s : State) (rate : Nat), s.refused = none → s.rate = some rate →
    (s.phase = .idle → exec .start s =
      .next { s with phase := .run, input := s.input.tail, eventIndex := s.eventIndex + 1 }) ∧
    (s.phase = .run → exec .start s = .next { s with refused := some .phaseViolation })

/-- R112, R181, R188: START in IDLE with no rate takes the fault: cause and phase are written and nothing else; in the
state it leaves, no instruction has a step. (The faulted state is a next state: log entry 4.) -/
def Obligations.StartWithoutRateFaults : Prop :=
  ∀ s : State, s.refused = none → s.phase = .idle → s.rate = none →
    ∃ t, exec .start s = .next t ∧
      t = { s with fault := some .missingSampleRate, phase := .fault, input := s.input.tail,
                   eventIndex := s.eventIndex + 1 } ∧
      ∀ i, exec i t = .fault .stuckInFault

/-- R212: from a block reset, SET_RATE with a rate of at least 1 and then START bring the block to RUN in FindReset,
with the rest of the events at its port and every other field of R50 at its reset value. (The port, and the index that
ends at 2 because it is 0 after a block reset, are the model's: log entry 1, DESIGN CHOICE.) -/
def Obligations.BootReachesRun : Prop :=
  ∀ (rate : Nat) (events : List Event), 1 ≤ rate →
    Sys2Proof.core.run 2 (sessionOf (⟨0b011#3, 0, rate⟩ :: ⟨0b100#3, 0, 0⟩ :: events)) =
      .next { State.reset with phase := .run, rate := some rate, input := events, eventIndex := 2 }

/-- R35: "Once the phase leaves IDLE, `rate` never changes". -/
def Obligations.RateFixedOnceStarted : Prop :=
  ∀ s s' : State, step s = .next s' → s.phase ≠ .idle → s'.rate = s.rate

/-! ## FindReset -/

/-- R120: RISE in FindReset records the rising edge, over an earlier one too. -/
def Obligations.RiseInFindResetRecordsEdge : Prop :=
  ∀ (s : State) (pos : Nat), EdgeReady s pos →
    exec (.riseFr pos) s = .next { s with
      lastRising := some pos, lastPos := some pos, input := s.input.tail, eventIndex := s.eventIndex + 1 }

/-- R121, R122, R123, R125: FALL in FindReset. After a rising edge at `r`, a high phase strictly longer than 4000 µs is a
reset: its annotation, the frame registers, ReadingBits. Any other moves only `lastFalling`; so does every FALL with no
rising edge before it, whatever its position. -/
def Obligations.FallInFindResetTestsHighPhase : Prop :=
  ∀ (s : State) (pos rate : Nat), EdgeReady s pos → s.rate = some rate →
    (∀ r, s.lastRising = some r → (pos - r) * 1000000 > 4000 * rate →
      exec (.fallFr pos) s = .next { s with
        out := s.out ++ [{ startSample := r, endSample := pos, level := .bit, text := "RESET" }]
        commandStart := r, wordStart := pos, lastFalling := some pos, content := 0, bitCount := 0
        state := .readingBits
        lastPos := some pos, input := s.input.tail, eventIndex := s.eventIndex + 1 }) ∧
    (∀ r, s.lastRising = some r → ¬ (pos - r) * 1000000 > 4000 * rate →
      exec (.fallFr pos) s = .next { s with
        lastFalling := some pos
        lastPos := some pos, input := s.input.tail, eventIndex := s.eventIndex + 1 }) ∧
    (s.lastRising = none →
      exec (.fallFr pos) s = .next { s with
        lastFalling := some pos
        lastPos := some pos, input := s.input.tail, eventIndex := s.eventIndex + 1 })

/-- R127: in microseconds, a FALL in FindReset emits exactly one annotation, RESET over the rising-to-falling interval,
if the high duration is over 4000 µs, and none otherwise. -/
def Obligations.ResetAnnotatedExactlyOverThreshold : Prop :=
  ∀ (s s' : State) (pos r rate : Nat), EdgeReady s pos → 1 ≤ rate → s.rate = some rate → s.lastRising = some r →
    exec (.fallFr pos) s = .next s' →
    (durUs rate (pos - r) > 4000 →
      s'.out = s.out ++ [{ startSample := r, endSample := pos, level := .bit, text := "RESET" }]) ∧
    (¬ durUs rate (pos - r) > 4000 → s'.out = s.out)

/-- R36, R126: `lastRising` changes only by a RISE in FindReset, which writes that edge's position. -/
def Obligations.LastRisingWrittenOnlyByRise : Prop :=
  ∀ s s' : State, step s = .next s' → s'.lastRising ≠ s.lastRising →
    s.state = .findReset ∧ ∃ ev rest, s.input = ev :: rest ∧ kindOf ev.kind = .rise ∧ s'.lastRising = some ev.pos

/-- R38, R39: `commandStart` and `wordStart` change only by a detected reset, from `lastRising` and from the position of
the falling edge. -/
def Obligations.FrameStartsWrittenOnlyByReset : Prop :=
  ∀ s s' : State, step s = .next s' → (s'.commandStart ≠ s.commandStart ∨ s'.wordStart ≠ s.wordStart) →
    s.state = .findReset ∧ s'.state = .readingBits ∧
    ∃ ev rest, s.input = ev :: rest ∧ kindOf ev.kind = .fall ∧
      s.lastRising = some s'.commandStart ∧ s'.wordStart = ev.pos

/-! ## ReadingBits -/

/-- R151: RISE in ReadingBits changes no decoder field; only its position is noted. -/
def Obligations.RiseInReadingBitsIsDropped : Prop :=
  ∀ (s : State) (pos : Nat), EdgeReady s pos →
    exec (.riseRb pos) s = .next { s with
      lastPos := some pos, input := s.input.tail, eventIndex := s.eventIndex + 1 }

/-- R144: a classified interval is appended as the new least significant bit, counted and annotated over the interval
since the previous falling edge. Short of the 16th bit that is all, but for `lastFalling` (R152); on the 16th bit the
same three things happen first (what follows them is the next statement). -/
def Obligations.ClassifiedBitIsAppended : Prop :=
  ∀ (s : State) (pos f rate : Nat) (v : Bool), EdgeReady s pos → s.rate = some rate → s.lastFalling = some f →
    InBand rate (pos - f) v →
    (s.bitCount < 15 → exec (.fallRb pos) s = .next { s with
      content := s.content * 2 + (if v then 1 else 0), bitCount := s.bitCount + 1
      out := s.out ++ [{ startSample := f, endSample := pos, level := .bit, text := if v then "1" else "0" }]
      lastFalling := some pos
      lastPos := some pos, input := s.input.tail, eventIndex := s.eventIndex + 1 }) ∧
    (s.bitCount = 15 → ∃ t, exec (.fallRb pos) s = .next t ∧
      t.content = s.content * 2 + (if v then 1 else 0) ∧ t.bitCount = 16 ∧
      s.out ++ [{ startSample := f, endSample := pos, level := .bit, text := if v then "1" else "0" }] <+: t.out)

/-- R147, R148: the 16th classified bit completes the word: the Bit, Word and Command annotations in this order, then
FindReset; the accumulator keeps the word and the count keeps 16. -/
def Obligations.SixteenthBitCompletesWord : Prop :=
  ∀ (s : State) (pos f rate : Nat) (v : Bool), EdgeReady s pos → s.rate = some rate → s.lastFalling = some f →
    InBand rate (pos - f) v → s.bitCount = 15 →
    exec (.fallRb pos) s = .next { s with
      content := s.content * 2 + (if v then 1 else 0), bitCount := 16
      out := s.out ++
        [{ startSample := f, endSample := pos, level := .bit, text := if v then "1" else "0" },
         { startSample := s.wordStart, endSample := pos, level := .word
           text := hex4 (s.content * 2 + (if v then 1 else 0)) },
         { startSample := s.commandStart, endSample := pos, level := .command
           text := cmdTable (s.content * 2 + (if v then 1 else 0)) }]
      state := .findReset
      lastFalling := some pos
      lastPos := some pos, input := s.input.tail, eventIndex := s.eventIndex + 1 }

/-- R143, R152: an interval in neither band signals nothing and leaves the accumulator alone; it still moves
`lastFalling`. (The count is at most 15 in ReadingBits, R49; that it is so is a statement of its own.) -/
def Obligations.UnclassifiedIntervalIsIgnored : Prop :=
  ∀ (s : State) (pos f rate : Nat), EdgeReady s pos → s.rate = some rate → s.lastFalling = some f →
    ¬ InBand rate (pos - f) false → ¬ InBand rate (pos - f) true → s.bitCount ≤ 15 →
    exec (.fallRb pos) s = .next { s with
      lastFalling := some pos
      lastPos := some pos, input := s.input.tail, eventIndex := s.eventIndex + 1 }

/-- R145, R183: no FALL, and no RISE, that is in order in RUN stops the block or is refused, whatever the rest of the
state. -/
def Obligations.EdgesInOrderNeverStop : Prop :=
  ∀ (s : State) (pos : Nat), EdgeReady s pos →
    ∀ i ∈ [Instr.riseFr pos, .fallFr pos, .riseRb pos, .fallRb pos],
      ∃ t, exec i s = .next t ∧ t.refused = none ∧ t.fault = s.fault ∧ t.phase = .run ∧ t.lastPos = some pos

/-- R146: in a sound state the accumulator update is exact: nothing is shifted out, and the new content is below 2 to
the new count. -/
def Obligations.AccumulatorUpdateIsExact : Prop :=
  ∀ (s s' : State) (pos : Nat), Inv s → s.state = .readingBits → exec (.fallRb pos) s = .next s' →
    s'.bitCount ≠ s.bitCount →
    s'.bitCount = s.bitCount + 1 ∧ s'.content.toNat < 2 ^ s'.bitCount ∧
      (s'.content.toNat = s.content.toNat * 2 ∨ s'.content.toNat = s.content.toNat * 2 + 1)

/-- R147, R216: only the FALL that delivers the 16th classified bit leads from ReadingBits back to FindReset. -/
def Obligations.OnlySixteenthBitLeavesReadingBits : Prop :=
  ∀ s s' : State, Inv s → step s = .next s' → s.state = .readingBits → s'.state = .findReset →
    s.bitCount = 15 ∧ s'.bitCount = 16 ∧
    ∃ ev rest f rate v, s.input = ev :: rest ∧ kindOf ev.kind = .fall ∧ s.lastFalling = some f ∧
      s.rate = some rate ∧ InBand rate (ev.pos - f) v

/-- R150, R217: in ReadingBits no reset is detected: no step from there emits a RESET annotation. -/
def Obligations.NoResetDetectedInReadingBits : Prop :=
  ∀ s s' : State, step s = .next s' → s.state = .readingBits →
    ∃ new, s'.out = s.out ++ new ∧ ∀ a ∈ new, a.level = .bit → a.text ≠ "RESET"

/-- R51: the wait mask is both polarities in FindReset and falling in ReadingBits; an edge outside the mask of the decoder
state changes no decoder field (only its position is noted, R151). -/
def Obligations.EdgeOutsideWaitMaskHasNoEffect : Prop :=
  (∀ p, p ∈ waitMask .findReset) ∧ (∀ p, p ∈ waitMask .readingBits ↔ p = .falling) ∧
  ∀ (s : State) (ev : Event) (rest : List Event) (p : Polarity), s.input = ev :: rest →
    polarityOf (kindOf ev.kind) = some p → p ∉ waitMask s.state → EdgeReady s ev.pos →
    step s = .next { s with lastPos := some ev.pos, input := rest, eventIndex := s.eventIndex + 1 }

/-- R152: every FALL in ReadingBits, whether or not its interval is classified, sets `lastFalling` to its position; so
does every FALL in FindReset (R122). -/
def Obligations.EveryFallMovesLastFalling : Prop :=
  ∀ (s : State) (pos : Nat), EdgeReady s pos →
    ∀ i ∈ [Instr.fallRb pos, .fallFr pos], ∃ t, exec i s = .next t ∧ t.lastFalling = some pos

/-- R40, R41: the accumulator and its count change only by a FALL: a detected reset sets both to 0, and a classified bit
shifts the content by one, brings the bit in at bit 0 and adds 1 to the count. In particular a completed word stays until
the next reset. -/
def Obligations.AccumulatorWrittenOnlyByResetOrBit : Prop :=
  ∀ s s' : State, step s = .next s' → (s'.content ≠ s.content ∨ s'.bitCount ≠ s.bitCount) →
    (∃ ev rest, s.input = ev :: rest ∧ kindOf ev.kind = .fall) ∧
    ((s.state = .findReset ∧ s'.state = .readingBits ∧ s'.content = 0 ∧ s'.bitCount = 0) ∨
     (s.state = .readingBits ∧ s'.bitCount = s.bitCount + 1 ∧
       ∃ v : Bool, s'.content = s.content * 2 + (if v then 1 else 0)))

/-! ## Times -/

/-- R14: over whole numbers, `longer` and `shorter` are the exact comparisons of the rational duration. -/
def Obligations.ComparisonsAreExact : Prop :=
  ∀ rate d T : Nat, 1 ≤ rate →
    (durUs rate d > (T : Rat) ↔ d * 1000000 > T * rate) ∧ (durUs rate d < (T : Rat) ↔ d * 1000000 < T * rate) ∧
    (longer rate d T = true ↔ durUs rate d > (T : Rat)) ∧ (shorter rate d T = true ↔ durUs rate d < (T : Rat))

/-- R141, R142: in microseconds, bit 0 is exactly the open band from 3000 to 5000, bit 1 exactly the open band from 6000
to 8000, and every other duration is unclassified. -/
def Obligations.BandsClassifyInMicroseconds : Prop :=
  ∀ rate d : Nat, 1 ≤ rate →
    (classify rate d = some false ↔ 3000 < durUs rate d ∧ durUs rate d < 5000) ∧
    (classify rate d = some true ↔ 6000 < durUs rate d ∧ durUs rate d < 8000) ∧
    (classify rate d = none ↔
      durUs rate d ≤ 3000 ∨ (5000 ≤ durUs rate d ∧ durUs rate d ≤ 6000) ∨ 8000 ≤ durUs rate d)

/-- R218, and the corner case of R110: above 500 Hz each band holds a whole sample count; at 100 Hz and at 1 Hz none does,
and every interval is unclassified; at 1 Hz every high phase of at least one sample is a reset. -/
def Obligations.RateResolvesBands : Prop :=
  (∀ rate : Nat, rate > 500 → (∃ d, classify rate d = some false) ∧ (∃ d, classify rate d = some true)) ∧
  (∀ d : Nat, classify 100 d = none) ∧ (∀ d : Nat, classify 1 d = none) ∧
  (∀ d : Nat, d > 0 → isReset 1 d = true)

/-! ## Output and the command table -/

/-- R92: the Word text is `0x` and four digits, and parsing it back as hexadecimal gives the word. -/
def Obligations.WordTextRoundTrips : Prop :=
  ∀ w : CmdWord, (hex4 w).length = 6 ∧ parseHex (hex4 w) = some w.toNat

/-- R64, R65: the listed entries; at 0x8044 and 0x8045 the later definition wins over the earlier one. -/
def Obligations.ListedCommandsRead : Prop :=
  cmdRead 0x1000 = "System ON" ∧ cmdRead 0x1080 = "System OFF" ∧ cmdRead 0x8044 = "CD Stop" ∧
  cmdRead 0x8045 = "CD Play/Pause" ∧ cmdRead 0x8084 = "Source: FM" ∧ cmdRead 0x857b = "Seek Rev" ∧
  cmdRead 0x85fb = "Seek Fwd"

/-- R63, R66: at a code that R64 does not list, the text is the entry the source does not give, whatever it is, and
`????` where the code is unmapped. -/
def Obligations.UnlistedCommandsAreOpen : Prop :=
  ∀ w : CmdWord, w ∉ [0x1000#16, 0x1080#16, 0x8044#16, 0x8045#16, 0x8084#16, 0x857b#16, 0x85fb#16] →
    (∀ text, Config.unlistedEntry w = some text → cmdRead w = text) ∧
    (Config.unlistedEntry w = none → cmdRead w = "????")

/-- R94: a step emits nothing, or one Bit annotation, or a Bit, a Word and a Command annotation in this order; earlier
output stays. -/
def Obligations.StepEmitsNoneOneOrThree : Prop :=
  ∀ s s' : State, Inv s → step s = .next s' →
    s'.out = s.out ∨ (∃ a, a.level = .bit ∧ (a.text = "RESET" ∨ a.text = "0" ∨ a.text = "1") ∧ s'.out = s.out ++ [a]) ∨
    (∃ a b c, a.level = .bit ∧ (a.text = "0" ∨ a.text = "1") ∧ b.level = .word ∧ c.level = .command ∧
      s'.out = s.out ++ [a, b, c])

/-- R45: the block never reads its output: with other earlier records, a step does the same. -/
def Obligations.OutputIsNeverRead : Prop :=
  ∀ (s : State) (earlier : List Annotation),
    step (withEarlierOut earlier s) = mapNext (withEarlierOut earlier) (step s)

/-- R45, R174: so a whole run does: two instances that differ only in their earlier output go on alike. -/
def Obligations.RunsIgnoreEarlierOutput : Prop :=
  ∀ (k : Nat) (s s' : State) (earlier : List Annotation), Sys2Proof.core.run k s = .next s' →
    Sys2Proof.core.run k (withEarlierOut earlier s) = .next (withEarlierOut earlier s')

/-! ## End of stream -/

/-- R170, R184: EOS in RUN ends the session, in either decoder state and with any number of bits read; nothing is emitted
and no other field changes. In IDLE it is a PhaseViolation, in DONE an EventAfterEnd: the model's next state with only
the mark set (log entry 3, DEDUCED). -/
def Obligations.EosEndsSession : Prop :=
  ∀ s : State, s.refused = none →
    (s.phase = .run → exec .eos s =
      .next { s with phase := .done, input := s.input.tail, eventIndex := s.eventIndex + 1 }) ∧
    (s.phase = .idle → exec .eos s = .next { s with refused := some .phaseViolation }) ∧
    (s.phase = .done → exec .eos s = .next { s with refused := some .eventAfterEnd })

/-- R171: only EOS in RUN ends a session, and it leaves the decoder state as it is. -/
def Obligations.OnlyEosReachesDone : Prop :=
  ∀ s s' : State, step s = .next s' → s'.phase = .done → s.phase ≠ .done →
    s.phase = .run ∧ s'.state = s.state ∧ s'.out = s.out ∧
    ∃ ev rest, s.input = ev :: rest ∧ kindOf ev.kind = .eos

/-! ## Faults and refusals -/

/-- R82: a reserved kind is refused with ReservedEventKind in IDLE, RUN and DONE (only the mark is set, R185), and has no
step in FAULT or once a refusal has been marked. (The refusal as a next state and the stop `runRefused` after it: log
entry 3; the stop `stuckInFault`: log entry 4; both DEDUCED.) -/
def Obligations.ReservedKindIsRefused : Prop :=
  ∀ (s : State) (code : KindCode),
    (s.refused = none → s.phase ≠ .fault →
      exec (.reserved code) s = .next { s with refused := some .reservedEventKind }) ∧
    (s.refused = none → s.phase = .fault → exec (.reserved code) s = .fault .stuckInFault) ∧
    (∀ c, s.refused = some c → exec (.reserved code) s = .refused (.runRefused c))

/-- R180: the acceptance table, for every instruction in every phase: stuck in FAULT; in IDLE the edges and EOS, in RUN
SET_RATE and START are PhaseViolation; in DONE everything is EventAfterEnd; a reserved kind is ReservedEventKind; and
an event its phase accepts is refused for none of these three causes. (A refused cell is the model's next state with the
mark set: log entry 3; a stuck one is the stop `stuckInFault`: log entry 4; both DEDUCED.) -/
def Obligations.PhasesAcceptByTable : Prop :=
  ∀ (i : Instr) (s : State), s.refused = none →
    (s.phase = .fault → exec i s = .fault .stuckInFault) ∧
    (s.phase ≠ .fault → kindOfInstr i = .reserved →
      exec i s = .next { s with refused := some .reservedEventKind }) ∧
    (s.phase = .done → kindOfInstr i ≠ .reserved → exec i s = .next { s with refused := some .eventAfterEnd }) ∧
    (s.phase = .idle → kindOfInstr i ∈ [EventKind.rise, .fall, .eos] →
      exec i s = .next { s with refused := some .phaseViolation }) ∧
    (s.phase = .run → kindOfInstr i ∈ [EventKind.setRate, .start] →
      exec i s = .next { s with refused := some .phaseViolation }) ∧
    ((s.phase = .idle ∧ kindOfInstr i ∈ [EventKind.setRate, .start]) ∨
      (s.phase = .run ∧ kindOfInstr i ∈ [EventKind.rise, .fall, .eos]) →
      ∃ t, exec i s = .next t ∧
        (t.refused = none ∨ t.refused = some .orderViolation ∨ t.refused = some .invalidSampleRate))

/-- R187: an edge at or before the last accepted edge is refused, in either decoder state, a RISE in ReadingBits
included; only the mark is set. (The refusal as a next state: log entry 3, DEDUCED.) -/
def Obligations.EdgeOutOfOrderIsRefused : Prop :=
  ∀ (s : State) (pos p : Nat), s.refused = none → s.phase = .run → s.lastPos = some p → pos ≤ p →
    ∀ i ∈ [Instr.riseFr pos, .fallFr pos, .riseRb pos, .fallRb pos],
      exec i s = .next { s with refused := some .orderViolation }

/-- R189: where two checks fire, the earlier one decides: stuck before all; then the reserved kind; then the event after
the end; then the phase; then the order, the rate and the missing rate. (The refusals as next states and the stop
`runRefused`: log entry 3; the stop `stuckInFault`: log entry 4; both DEDUCED.) -/
def Obligations.ChecksApplyInOrder : Prop :=
  ∀ (s : State) (pos p : Nat) (code : KindCode) (c : RefusalCause),
    (s.refused = some c → ∀ i, exec i s = .refused (.runRefused c)) ∧
    (s.refused = none → s.phase = .fault → ∀ i, exec i s = .fault .stuckInFault) ∧
    (s.refused = none → s.phase ≠ .fault →
      exec (.reserved code) s = .next { s with refused := some .reservedEventKind }) ∧
    (s.refused = none → s.phase = .done → s.lastPos = some p → pos ≤ p →
      ∀ i ∈ [Instr.riseFr pos, .fallFr pos, .riseRb pos, .fallRb pos],
        exec i s = .next { s with refused := some .eventAfterEnd }) ∧
    (s.refused = none → s.phase = .done → ∀ i ∈ [Instr.setRate 0, .start],
      exec i s = .next { s with refused := some .eventAfterEnd }) ∧
    (s.refused = none → s.phase = .idle → s.lastPos = some p → pos ≤ p →
      ∀ i ∈ [Instr.riseFr pos, .fallFr pos, .riseRb pos, .fallRb pos],
        exec i s = .next { s with refused := some .phaseViolation }) ∧
    (s.refused = none → s.phase = .run → ∀ i ∈ [Instr.setRate 0, .start],
      exec i s = .next { s with refused := some .phaseViolation })

/-- R188: in phase FAULT, and once a refusal is marked (R95), no event has a step; the host's block reset leaves FAULT and
clears the fault and the mark. -/
def Obligations.FaultAndRefusalAreFinal : Prop :=
  ∀ s : State, (s.phase = .fault ∨ s.refused ≠ none) →
    (∀ s', step s ≠ .next s') ∧
    s.blockReset.phase = .idle ∧ s.blockReset.fault = none ∧ s.blockReset.refused = none

/-- R182: a fault is recorded only by START in IDLE with no rate, and the step that records it writes only the
fault and the phase (R190). That the fault is a next state is log entry 4, that its event leaves the port (R32) and moves
the index is log entry 1 (both DEDUCED). -/
def Obligations.FaultOnlyFromStart : Prop :=
  ∀ s s' : State, step s = .next s' → s'.fault ≠ s.fault →
    s.phase = .idle ∧ s.rate = none ∧ (∃ ev rest, s.input = ev :: rest ∧ kindOf ev.kind = .start) ∧
    s' = { s with fault := some .missingSampleRate, phase := .fault, input := s.input.tail,
                  eventIndex := s.eventIndex + 1 }

/-- R185, R190: a step that ends with the refusal mark set has set only that mark, and no step follows it (R95). (The
refusal as a next state and the stop `runRefused`: log entry 3, DEDUCED.) -/
def Obligations.RefusalWritesOnlyMark : Prop :=
  ∀ s s' : State, step s = .next s' → s'.refused ≠ none →
    s.refused = none ∧ ∃ c, s' = { s with refused := some c } ∧ step s' = .refused (.runRefused c)

/-! ## Invariants -/

/-- The invariants of R49 hold after a block reset, whatever events wait at the port. -/
def Obligations.ResetIsSound : Prop :=
  ∀ events : List Event, Inv (sessionOf events) ∧ AccumulatorMatchesOutput (sessionOf events)

/-- R49, R113, R90: every step keeps the invariants. -/
def Obligations.StepKeepsSoundness : Prop :=
  ∀ s s' : State, Inv s → step s = .next s' → Inv s'

/-- The host's actions keep them too: a block reset establishes them (R210), delivering an event keeps them. -/
def Obligations.HostActionsKeepSoundness : Prop :=
  ∀ (s : State) (ev : Event), Inv s.blockReset ∧ (Inv s → Inv (s.deliver ev))

/-- R40, R41, R67: every step keeps the accumulator equal to the bits since the last RESET of the output, the first bit
the most significant. -/
def Obligations.StepKeepsAccumulatorMatch : Prop :=
  ∀ s s' : State, Inv s → AccumulatorMatchesOutput s → step s = .next s' → AccumulatorMatchesOutput s'

/-- R149, R67, R148: every step keeps it that each Word and each Command record follows exactly 16 bits since the last
RESET and shows the word they make. -/
def Obligations.StepKeepsWordsWhole : Prop :=
  ∀ s s' : State, Inv s → AccumulatorMatchesOutput s → WordsAreWhole s.out → step s = .next s' →
    WordsAreWhole s'.out

/-- R149: for EVERY event sequence, after any number of steps from a block reset, the output is whole: no Word and no
Command for fewer than 16 classified bits since the last RESET, and each shows the word of those bits. -/
def Obligations.EveryRunEmitsWholeWords : Prop :=
  ∀ (events : List Event) (k : Nat) (s : State), Sys2Proof.core.run k (sessionOf events) = .next s →
    WordsAreWhole s.out ∧ ∀ a ∈ s.out, a.startSample < a.endSample
end

