-- ==== Sys2Proof/Laws/Decode.lean ====
section
/-! SUPPORT. What the decoder reads: the two fields of the key, and the instruction of each kind. -/

namespace Sys2Proof

@[simp] theorem decodeKey_context (S : DecoderState) (c : KindCode) :
    (decodeKey S c).extractLsb' 3 1 = contextBit S := by
  cases S <;> revert c <;> decide

@[simp] theorem decodeKey_kind (S : DecoderState) (c : KindCode) :
    (decodeKey S c).extractLsb' 0 3 = c := by
  cases S <;> revert c <;> decide

@[simp] theorem contextOfBit_contextBit (S : DecoderState) : contextOfBit (contextBit S) = S := by
  cases S <;> rfl

/-- The key table of R83, by the kind of the event. -/
theorem decode_by_kind (S : DecoderState) (ev : Event) :
    decode S ev =
      match S, kindOf ev.kind with
      | .findReset, .rise => .riseFr ev.pos
      | .findReset, .fall => .fallFr ev.pos
      | .readingBits, .rise => .riseRb ev.pos
      | .readingBits, .fall => .fallRb ev.pos
      | _, .eos => .eos
      | _, .setRate => .setRate ev.rate
      | _, .start => .start
      | _, .reserved => .reserved ev.kind := by
  cases S <;> cases hk : kindOf ev.kind <;> simp [decode, decodeAt, hk]

theorem kindOf_reserved_iff (c : KindCode) : kindOf c = .reserved ↔ 5 ≤ c.toNat := by
  revert c
  decide

theorem kindOf_decode (S : DecoderState) (ev : Event) : kindOfInstr (decode S ev) = kindOf ev.kind := by
  rw [decode_by_kind]
  cases S <;> cases h : kindOf ev.kind <;> rfl

end Sys2Proof
end

