-- ==== Sys2Proof/Laws/State.lean ====
section
/-! SUPPORT. One lemma per field per named update of the state, so that no proof unfolds an update. -/

namespace Sys2Proof.Machine

variable (s : State)

@[simp] theorem State.emit_phase (a : Annotation) : (s.emit a).phase = s.phase := rfl
@[simp] theorem State.emit_rate (a : Annotation) : (s.emit a).rate = s.rate := rfl
@[simp] theorem State.emit_state (a : Annotation) : (s.emit a).state = s.state := rfl
@[simp] theorem State.emit_lastRising (a : Annotation) : (s.emit a).lastRising = s.lastRising := rfl
@[simp] theorem State.emit_lastFalling (a : Annotation) : (s.emit a).lastFalling = s.lastFalling := rfl
@[simp] theorem State.emit_commandStart (a : Annotation) : (s.emit a).commandStart = s.commandStart := rfl
@[simp] theorem State.emit_wordStart (a : Annotation) : (s.emit a).wordStart = s.wordStart := rfl
@[simp] theorem State.emit_content (a : Annotation) : (s.emit a).content = s.content := rfl
@[simp] theorem State.emit_bitCount (a : Annotation) : (s.emit a).bitCount = s.bitCount := rfl
@[simp] theorem State.emit_fault (a : Annotation) : (s.emit a).fault = s.fault := rfl
@[simp] theorem State.emit_refused (a : Annotation) : (s.emit a).refused = s.refused := rfl
@[simp] theorem State.emit_lastPos (a : Annotation) : (s.emit a).lastPos = s.lastPos := rfl
@[simp] theorem State.emit_out (a : Annotation) : (s.emit a).out = s.out ++ [a] := rfl
@[simp] theorem State.emit_input (a : Annotation) : (s.emit a).input = s.input := rfl
@[simp] theorem State.emit_eventIndex (a : Annotation) : (s.emit a).eventIndex = s.eventIndex := rfl

@[simp] theorem State.consume_phase : s.consume.phase = s.phase := rfl
@[simp] theorem State.consume_rate : s.consume.rate = s.rate := rfl
@[simp] theorem State.consume_state : s.consume.state = s.state := rfl
@[simp] theorem State.consume_lastRising : s.consume.lastRising = s.lastRising := rfl
@[simp] theorem State.consume_lastFalling : s.consume.lastFalling = s.lastFalling := rfl
@[simp] theorem State.consume_commandStart : s.consume.commandStart = s.commandStart := rfl
@[simp] theorem State.consume_wordStart : s.consume.wordStart = s.wordStart := rfl
@[simp] theorem State.consume_content : s.consume.content = s.content := rfl
@[simp] theorem State.consume_bitCount : s.consume.bitCount = s.bitCount := rfl
@[simp] theorem State.consume_fault : s.consume.fault = s.fault := rfl
@[simp] theorem State.consume_refused : s.consume.refused = s.refused := rfl
@[simp] theorem State.consume_lastPos : s.consume.lastPos = s.lastPos := rfl
@[simp] theorem State.consume_out : s.consume.out = s.out := rfl
@[simp] theorem State.consume_input : s.consume.input = s.input.tail := rfl
@[simp] theorem State.consume_eventIndex : s.consume.eventIndex = s.eventIndex + 1 := rfl

@[simp] theorem State.noteEdge_phase (p : Nat) : (s.noteEdge p).phase = s.phase := rfl
@[simp] theorem State.noteEdge_rate (p : Nat) : (s.noteEdge p).rate = s.rate := rfl
@[simp] theorem State.noteEdge_state (p : Nat) : (s.noteEdge p).state = s.state := rfl
@[simp] theorem State.noteEdge_lastRising (p : Nat) : (s.noteEdge p).lastRising = s.lastRising := rfl
@[simp] theorem State.noteEdge_lastFalling (p : Nat) : (s.noteEdge p).lastFalling = s.lastFalling := rfl
@[simp] theorem State.noteEdge_commandStart (p : Nat) : (s.noteEdge p).commandStart = s.commandStart := rfl
@[simp] theorem State.noteEdge_wordStart (p : Nat) : (s.noteEdge p).wordStart = s.wordStart := rfl
@[simp] theorem State.noteEdge_content (p : Nat) : (s.noteEdge p).content = s.content := rfl
@[simp] theorem State.noteEdge_bitCount (p : Nat) : (s.noteEdge p).bitCount = s.bitCount := rfl
@[simp] theorem State.noteEdge_fault (p : Nat) : (s.noteEdge p).fault = s.fault := rfl
@[simp] theorem State.noteEdge_refused (p : Nat) : (s.noteEdge p).refused = s.refused := rfl
@[simp] theorem State.noteEdge_lastPos (p : Nat) : (s.noteEdge p).lastPos = some p := rfl
@[simp] theorem State.noteEdge_out (p : Nat) : (s.noteEdge p).out = s.out := rfl
@[simp] theorem State.noteEdge_input (p : Nat) : (s.noteEdge p).input = s.input := rfl
@[simp] theorem State.noteEdge_eventIndex (p : Nat) : (s.noteEdge p).eventIndex = s.eventIndex := rfl

@[simp] theorem State.markRefused_phase (c : RefusalCause) : (s.markRefused c).phase = s.phase := rfl
@[simp] theorem State.markRefused_rate (c : RefusalCause) : (s.markRefused c).rate = s.rate := rfl
@[simp] theorem State.markRefused_state (c : RefusalCause) : (s.markRefused c).state = s.state := rfl
@[simp] theorem State.markRefused_lastRising (c : RefusalCause) : (s.markRefused c).lastRising = s.lastRising := rfl
@[simp] theorem State.markRefused_lastFalling (c : RefusalCause) : (s.markRefused c).lastFalling = s.lastFalling := rfl
@[simp] theorem State.markRefused_commandStart (c : RefusalCause) : (s.markRefused c).commandStart = s.commandStart := rfl
@[simp] theorem State.markRefused_wordStart (c : RefusalCause) : (s.markRefused c).wordStart = s.wordStart := rfl
@[simp] theorem State.markRefused_content (c : RefusalCause) : (s.markRefused c).content = s.content := rfl
@[simp] theorem State.markRefused_bitCount (c : RefusalCause) : (s.markRefused c).bitCount = s.bitCount := rfl
@[simp] theorem State.markRefused_fault (c : RefusalCause) : (s.markRefused c).fault = s.fault := rfl
@[simp] theorem State.markRefused_refused (c : RefusalCause) : (s.markRefused c).refused = some c := rfl
@[simp] theorem State.markRefused_lastPos (c : RefusalCause) : (s.markRefused c).lastPos = s.lastPos := rfl
@[simp] theorem State.markRefused_out (c : RefusalCause) : (s.markRefused c).out = s.out := rfl
@[simp] theorem State.markRefused_input (c : RefusalCause) : (s.markRefused c).input = s.input := rfl
@[simp] theorem State.markRefused_eventIndex (c : RefusalCause) : (s.markRefused c).eventIndex = s.eventIndex := rfl

@[simp] theorem State.raiseFault_phase (c : FaultCause) : (s.raiseFault c).phase = .fault := rfl
@[simp] theorem State.raiseFault_rate (c : FaultCause) : (s.raiseFault c).rate = s.rate := rfl
@[simp] theorem State.raiseFault_state (c : FaultCause) : (s.raiseFault c).state = s.state := rfl
@[simp] theorem State.raiseFault_lastRising (c : FaultCause) : (s.raiseFault c).lastRising = s.lastRising := rfl
@[simp] theorem State.raiseFault_lastFalling (c : FaultCause) : (s.raiseFault c).lastFalling = s.lastFalling := rfl
@[simp] theorem State.raiseFault_commandStart (c : FaultCause) : (s.raiseFault c).commandStart = s.commandStart := rfl
@[simp] theorem State.raiseFault_wordStart (c : FaultCause) : (s.raiseFault c).wordStart = s.wordStart := rfl
@[simp] theorem State.raiseFault_content (c : FaultCause) : (s.raiseFault c).content = s.content := rfl
@[simp] theorem State.raiseFault_bitCount (c : FaultCause) : (s.raiseFault c).bitCount = s.bitCount := rfl
@[simp] theorem State.raiseFault_fault (c : FaultCause) : (s.raiseFault c).fault = some c := rfl
@[simp] theorem State.raiseFault_refused (c : FaultCause) : (s.raiseFault c).refused = s.refused := rfl
@[simp] theorem State.raiseFault_lastPos (c : FaultCause) : (s.raiseFault c).lastPos = s.lastPos := rfl
@[simp] theorem State.raiseFault_out (c : FaultCause) : (s.raiseFault c).out = s.out := rfl
@[simp] theorem State.raiseFault_input (c : FaultCause) : (s.raiseFault c).input = s.input := rfl
@[simp] theorem State.raiseFault_eventIndex (c : FaultCause) : (s.raiseFault c).eventIndex = s.eventIndex := rfl

@[simp] theorem State.noteFalling_phase (p : Nat) : (s.noteFalling p).phase = s.phase := rfl
@[simp] theorem State.noteFalling_rate (p : Nat) : (s.noteFalling p).rate = s.rate := rfl
@[simp] theorem State.noteFalling_state (p : Nat) : (s.noteFalling p).state = s.state := rfl
@[simp] theorem State.noteFalling_lastRising (p : Nat) : (s.noteFalling p).lastRising = s.lastRising := rfl
@[simp] theorem State.noteFalling_lastFalling (p : Nat) : (s.noteFalling p).lastFalling = some p := rfl
@[simp] theorem State.noteFalling_commandStart (p : Nat) : (s.noteFalling p).commandStart = s.commandStart := rfl
@[simp] theorem State.noteFalling_wordStart (p : Nat) : (s.noteFalling p).wordStart = s.wordStart := rfl
@[simp] theorem State.noteFalling_content (p : Nat) : (s.noteFalling p).content = s.content := rfl
@[simp] theorem State.noteFalling_bitCount (p : Nat) : (s.noteFalling p).bitCount = s.bitCount := rfl
@[simp] theorem State.noteFalling_fault (p : Nat) : (s.noteFalling p).fault = s.fault := rfl
@[simp] theorem State.noteFalling_refused (p : Nat) : (s.noteFalling p).refused = s.refused := rfl
@[simp] theorem State.noteFalling_lastPos (p : Nat) : (s.noteFalling p).lastPos = s.lastPos := rfl
@[simp] theorem State.noteFalling_out (p : Nat) : (s.noteFalling p).out = s.out := rfl
@[simp] theorem State.noteFalling_input (p : Nat) : (s.noteFalling p).input = s.input := rfl
@[simp] theorem State.noteFalling_eventIndex (p : Nat) : (s.noteFalling p).eventIndex = s.eventIndex := rfl

@[simp] theorem State.beginFrame_phase (r p : Nat) : (s.beginFrame r p).phase = s.phase := rfl
@[simp] theorem State.beginFrame_rate (r p : Nat) : (s.beginFrame r p).rate = s.rate := rfl
@[simp] theorem State.beginFrame_state (r p : Nat) : (s.beginFrame r p).state = .readingBits := rfl
@[simp] theorem State.beginFrame_lastRising (r p : Nat) : (s.beginFrame r p).lastRising = s.lastRising := rfl
@[simp] theorem State.beginFrame_lastFalling (r p : Nat) : (s.beginFrame r p).lastFalling = some p := rfl
@[simp] theorem State.beginFrame_commandStart (r p : Nat) : (s.beginFrame r p).commandStart = r := rfl
@[simp] theorem State.beginFrame_wordStart (r p : Nat) : (s.beginFrame r p).wordStart = p := rfl
@[simp] theorem State.beginFrame_content (r p : Nat) : (s.beginFrame r p).content = 0 := rfl
@[simp] theorem State.beginFrame_bitCount (r p : Nat) : (s.beginFrame r p).bitCount = 0 := rfl
@[simp] theorem State.beginFrame_fault (r p : Nat) : (s.beginFrame r p).fault = s.fault := rfl
@[simp] theorem State.beginFrame_refused (r p : Nat) : (s.beginFrame r p).refused = s.refused := rfl
@[simp] theorem State.beginFrame_lastPos (r p : Nat) : (s.beginFrame r p).lastPos = s.lastPos := rfl
@[simp] theorem State.beginFrame_out (r p : Nat) : (s.beginFrame r p).out = s.out ++ [⟨r, p, .bit, resetText⟩] := rfl
@[simp] theorem State.beginFrame_input (r p : Nat) : (s.beginFrame r p).input = s.input := rfl
@[simp] theorem State.beginFrame_eventIndex (r p : Nat) : (s.beginFrame r p).eventIndex = s.eventIndex := rfl

@[simp] theorem State.appendBit_phase (f p : Nat) (v : Bool) : (s.appendBit f p v).phase = s.phase := rfl
@[simp] theorem State.appendBit_rate (f p : Nat) (v : Bool) : (s.appendBit f p v).rate = s.rate := rfl
@[simp] theorem State.appendBit_state (f p : Nat) (v : Bool) : (s.appendBit f p v).state = s.state := rfl
@[simp] theorem State.appendBit_lastRising (f p : Nat) (v : Bool) : (s.appendBit f p v).lastRising = s.lastRising := rfl
@[simp] theorem State.appendBit_lastFalling (f p : Nat) (v : Bool) : (s.appendBit f p v).lastFalling = s.lastFalling := rfl
@[simp] theorem State.appendBit_commandStart (f p : Nat) (v : Bool) : (s.appendBit f p v).commandStart = s.commandStart := rfl
@[simp] theorem State.appendBit_wordStart (f p : Nat) (v : Bool) : (s.appendBit f p v).wordStart = s.wordStart := rfl
@[simp] theorem State.appendBit_content (f p : Nat) (v : Bool) : (s.appendBit f p v).content = s.content * 2 + (if v then 1 else 0) := rfl
@[simp] theorem State.appendBit_bitCount (f p : Nat) (v : Bool) : (s.appendBit f p v).bitCount = s.bitCount + 1 := rfl
@[simp] theorem State.appendBit_fault (f p : Nat) (v : Bool) : (s.appendBit f p v).fault = s.fault := rfl
@[simp] theorem State.appendBit_refused (f p : Nat) (v : Bool) : (s.appendBit f p v).refused = s.refused := rfl
@[simp] theorem State.appendBit_lastPos (f p : Nat) (v : Bool) : (s.appendBit f p v).lastPos = s.lastPos := rfl
@[simp] theorem State.appendBit_out (f p : Nat) (v : Bool) : (s.appendBit f p v).out = s.out ++ [⟨f, p, .bit, bitText v⟩] := rfl
@[simp] theorem State.appendBit_input (f p : Nat) (v : Bool) : (s.appendBit f p v).input = s.input := rfl
@[simp] theorem State.appendBit_eventIndex (f p : Nat) (v : Bool) : (s.appendBit f p v).eventIndex = s.eventIndex := rfl

@[simp] theorem State.completeWord_phase (p : Nat) : (s.completeWord p).phase = s.phase := rfl
@[simp] theorem State.completeWord_rate (p : Nat) : (s.completeWord p).rate = s.rate := rfl
@[simp] theorem State.completeWord_state (p : Nat) : (s.completeWord p).state = .findReset := rfl
@[simp] theorem State.completeWord_lastRising (p : Nat) : (s.completeWord p).lastRising = s.lastRising := rfl
@[simp] theorem State.completeWord_lastFalling (p : Nat) : (s.completeWord p).lastFalling = s.lastFalling := rfl
@[simp] theorem State.completeWord_commandStart (p : Nat) : (s.completeWord p).commandStart = s.commandStart := rfl
@[simp] theorem State.completeWord_wordStart (p : Nat) : (s.completeWord p).wordStart = s.wordStart := rfl
@[simp] theorem State.completeWord_content (p : Nat) : (s.completeWord p).content = s.content := rfl
@[simp] theorem State.completeWord_bitCount (p : Nat) : (s.completeWord p).bitCount = s.bitCount := rfl
@[simp] theorem State.completeWord_fault (p : Nat) : (s.completeWord p).fault = s.fault := rfl
@[simp] theorem State.completeWord_refused (p : Nat) : (s.completeWord p).refused = s.refused := rfl
@[simp] theorem State.completeWord_lastPos (p : Nat) : (s.completeWord p).lastPos = s.lastPos := rfl
@[simp] theorem State.completeWord_out (p : Nat) : (s.completeWord p).out = s.out ++ [⟨s.wordStart, p, .word, hex4 s.content⟩, ⟨s.commandStart, p, .command, cmdRead s.content⟩] := by
  simp [State.completeWord, State.emit]
@[simp] theorem State.completeWord_input (p : Nat) : (s.completeWord p).input = s.input := rfl
@[simp] theorem State.completeWord_eventIndex (p : Nat) : (s.completeWord p).eventIndex = s.eventIndex := rfl

@[simp] theorem State.deliver_phase (ev : Event) : (s.deliver ev).phase = s.phase := rfl
@[simp] theorem State.deliver_rate (ev : Event) : (s.deliver ev).rate = s.rate := rfl
@[simp] theorem State.deliver_state (ev : Event) : (s.deliver ev).state = s.state := rfl
@[simp] theorem State.deliver_lastRising (ev : Event) : (s.deliver ev).lastRising = s.lastRising := rfl
@[simp] theorem State.deliver_lastFalling (ev : Event) : (s.deliver ev).lastFalling = s.lastFalling := rfl
@[simp] theorem State.deliver_commandStart (ev : Event) : (s.deliver ev).commandStart = s.commandStart := rfl
@[simp] theorem State.deliver_wordStart (ev : Event) : (s.deliver ev).wordStart = s.wordStart := rfl
@[simp] theorem State.deliver_content (ev : Event) : (s.deliver ev).content = s.content := rfl
@[simp] theorem State.deliver_bitCount (ev : Event) : (s.deliver ev).bitCount = s.bitCount := rfl
@[simp] theorem State.deliver_fault (ev : Event) : (s.deliver ev).fault = s.fault := rfl
@[simp] theorem State.deliver_refused (ev : Event) : (s.deliver ev).refused = s.refused := rfl
@[simp] theorem State.deliver_lastPos (ev : Event) : (s.deliver ev).lastPos = s.lastPos := rfl
@[simp] theorem State.deliver_out (ev : Event) : (s.deliver ev).out = s.out := rfl
@[simp] theorem State.deliver_input (ev : Event) : (s.deliver ev).input = s.input ++ [ev] := rfl
@[simp] theorem State.deliver_eventIndex (ev : Event) : (s.deliver ev).eventIndex = s.eventIndex := rfl

@[simp] theorem State.toPhase_phase (p : Phase) : (s.toPhase p).phase = p := rfl
@[simp] theorem State.toPhase_rate (p : Phase) : (s.toPhase p).rate = s.rate := rfl
@[simp] theorem State.toPhase_state (p : Phase) : (s.toPhase p).state = s.state := rfl
@[simp] theorem State.toPhase_lastRising (p : Phase) : (s.toPhase p).lastRising = s.lastRising := rfl
@[simp] theorem State.toPhase_lastFalling (p : Phase) : (s.toPhase p).lastFalling = s.lastFalling := rfl
@[simp] theorem State.toPhase_commandStart (p : Phase) : (s.toPhase p).commandStart = s.commandStart := rfl
@[simp] theorem State.toPhase_wordStart (p : Phase) : (s.toPhase p).wordStart = s.wordStart := rfl
@[simp] theorem State.toPhase_content (p : Phase) : (s.toPhase p).content = s.content := rfl
@[simp] theorem State.toPhase_bitCount (p : Phase) : (s.toPhase p).bitCount = s.bitCount := rfl
@[simp] theorem State.toPhase_fault (p : Phase) : (s.toPhase p).fault = s.fault := rfl
@[simp] theorem State.toPhase_refused (p : Phase) : (s.toPhase p).refused = s.refused := rfl
@[simp] theorem State.toPhase_lastPos (p : Phase) : (s.toPhase p).lastPos = s.lastPos := rfl
@[simp] theorem State.toPhase_out (p : Phase) : (s.toPhase p).out = s.out := rfl
@[simp] theorem State.toPhase_input (p : Phase) : (s.toPhase p).input = s.input := rfl
@[simp] theorem State.toPhase_eventIndex (p : Phase) : (s.toPhase p).eventIndex = s.eventIndex := rfl

@[simp] theorem State.putRate_phase (r : Nat) : (s.putRate r).phase = s.phase := rfl
@[simp] theorem State.putRate_rate (r : Nat) : (s.putRate r).rate = some r := rfl
@[simp] theorem State.putRate_state (r : Nat) : (s.putRate r).state = s.state := rfl
@[simp] theorem State.putRate_lastRising (r : Nat) : (s.putRate r).lastRising = s.lastRising := rfl
@[simp] theorem State.putRate_lastFalling (r : Nat) : (s.putRate r).lastFalling = s.lastFalling := rfl
@[simp] theorem State.putRate_commandStart (r : Nat) : (s.putRate r).commandStart = s.commandStart := rfl
@[simp] theorem State.putRate_wordStart (r : Nat) : (s.putRate r).wordStart = s.wordStart := rfl
@[simp] theorem State.putRate_content (r : Nat) : (s.putRate r).content = s.content := rfl
@[simp] theorem State.putRate_bitCount (r : Nat) : (s.putRate r).bitCount = s.bitCount := rfl
@[simp] theorem State.putRate_fault (r : Nat) : (s.putRate r).fault = s.fault := rfl
@[simp] theorem State.putRate_refused (r : Nat) : (s.putRate r).refused = s.refused := rfl
@[simp] theorem State.putRate_lastPos (r : Nat) : (s.putRate r).lastPos = s.lastPos := rfl
@[simp] theorem State.putRate_out (r : Nat) : (s.putRate r).out = s.out := rfl
@[simp] theorem State.putRate_input (r : Nat) : (s.putRate r).input = s.input := rfl
@[simp] theorem State.putRate_eventIndex (r : Nat) : (s.putRate r).eventIndex = s.eventIndex := rfl

@[simp] theorem State.noteRising_phase (p : Nat) : (s.noteRising p).phase = s.phase := rfl
@[simp] theorem State.noteRising_rate (p : Nat) : (s.noteRising p).rate = s.rate := rfl
@[simp] theorem State.noteRising_state (p : Nat) : (s.noteRising p).state = s.state := rfl
@[simp] theorem State.noteRising_lastRising (p : Nat) : (s.noteRising p).lastRising = some p := rfl
@[simp] theorem State.noteRising_lastFalling (p : Nat) : (s.noteRising p).lastFalling = s.lastFalling := rfl
@[simp] theorem State.noteRising_commandStart (p : Nat) : (s.noteRising p).commandStart = s.commandStart := rfl
@[simp] theorem State.noteRising_wordStart (p : Nat) : (s.noteRising p).wordStart = s.wordStart := rfl
@[simp] theorem State.noteRising_content (p : Nat) : (s.noteRising p).content = s.content := rfl
@[simp] theorem State.noteRising_bitCount (p : Nat) : (s.noteRising p).bitCount = s.bitCount := rfl
@[simp] theorem State.noteRising_fault (p : Nat) : (s.noteRising p).fault = s.fault := rfl
@[simp] theorem State.noteRising_refused (p : Nat) : (s.noteRising p).refused = s.refused := rfl
@[simp] theorem State.noteRising_lastPos (p : Nat) : (s.noteRising p).lastPos = s.lastPos := rfl
@[simp] theorem State.noteRising_out (p : Nat) : (s.noteRising p).out = s.out := rfl
@[simp] theorem State.noteRising_input (p : Nat) : (s.noteRising p).input = s.input := rfl
@[simp] theorem State.noteRising_eventIndex (p : Nat) : (s.noteRising p).eventIndex = s.eventIndex := rfl

end Sys2Proof.Machine
end

