-- ==== Sys2Proof/Laws/Ops.lean ====
section
/-! SUPPORT. What the shared operations can do, said once each: acceptance, admission, the measured conditions. -/

namespace Sys2Proof.Machine

@[simp] theorem acceptance_fault (k : EventKind) : acceptance .fault k = .stuck := by
  simp [acceptance]

@[simp] theorem acceptance_run (k : EventKind) :
    acceptance .run k =
      match k with
      | .rise | .fall | .eos => .accepted
      | .setRate | .start => .refused .phaseViolation
      | .reserved => .refused .reservedEventKind := by
  cases k <;> rfl

@[simp] theorem acceptance_idle (k : EventKind) :
    acceptance .idle k =
      match k with
      | .setRate | .start => .accepted
      | .rise | .fall | .eos => .refused .phaseViolation
      | .reserved => .refused .reservedEventKind := by
  cases k <;> rfl

@[simp] theorem acceptance_done (k : EventKind) :
    acceptance .done k = if k = .reserved then .refused .reservedEventKind else .refused .eventAfterEnd := by
  simp [acceptance]

theorem inOrder_iff (s : State) (pos : Nat) :
    inOrder s.lastPos pos = true ↔ ∀ p, s.lastPos = some p → p < pos := by
  unfold inOrder
  cases s.lastPos <;> simp

/-- An event of a run with a refusal marked: no step (R95). -/
theorem accept_of_refused {k : EventKind} {s : State} {body : State → Result} {c : RefusalCause}
    (h : s.refused = some c) : accept k s body = .refused (.runRefused c) := by
  simp [accept, h]

/-- An event with no refusal marked goes by the acceptance table (R180). -/
theorem accept_of_clear {k : EventKind} {s : State} {body : State → Result} (h : s.refused = none) :
    accept k s body =
      match acceptance s.phase k with
      | .stuck => .fault .stuckInFault
      | .refused c => .next (s.markRefused c)
      | .accepted => body s.consume := by
  cases ha : acceptance s.phase k <;> simp [accept, h, ha]

/-- Everything an admitted event can do when it answers a next state. -/
theorem accept_next {k : EventKind} {s s' : State} {body : State → Result} (h : accept k s body = .next s') :
    s.refused = none ∧
      ((∃ c, acceptance s.phase k = .refused c ∧ s' = s.markRefused c) ∨
        (acceptance s.phase k = .accepted ∧ body s.consume = .next s')) := by
  cases hr : s.refused with
  | some c => simp [accept_of_refused hr] at h
  | none =>
    rw [accept_of_clear hr] at h
    cases ha : acceptance s.phase k with
    | stuck => simp [ha] at h
    | refused c => simp [ha] at h; exact ⟨rfl, .inl ⟨c, rfl, h.symm⟩⟩
    | accepted => simp [ha] at h; exact ⟨rfl, .inr ⟨rfl, h⟩⟩

/-- Only RISE, FALL and EOS are accepted in RUN, and nothing else is accepted outside IDLE (R180). -/
theorem phase_of_accepted {p : Phase} {k : EventKind} (h : acceptance p k = .accepted) :
    (p = .run ∧ (k = .rise ∨ k = .fall ∨ k = .eos)) ∨ (p = .idle ∧ (k = .setRate ∨ k = .start)) := by
  revert h
  cases p <;> cases k <;> decide

/-- Everything an edge can do when it answers a next state. -/
theorem acceptEdge_next {k : EventKind} {pos : Nat} {s s' : State} {body : State → Result}
    (h : acceptEdge k pos s body = .next s') :
    s.refused = none ∧
      ((∃ c, s' = s.markRefused c) ∨
        (acceptance s.phase k = .accepted ∧ (∀ p, s.lastPos = some p → p < pos) ∧
          body (s.consume.noteEdge pos) = .next s')) := by
  obtain ⟨hr, ⟨c, -, rfl⟩ | ⟨ha, hb⟩⟩ := accept_next h
  · exact ⟨hr, .inl ⟨c, rfl⟩⟩
  · by_cases ho : inOrder s.lastPos pos = true
    · rw [if_pos ho] at hb
      exact ⟨hr, .inr ⟨ha, (inOrder_iff s pos).mp ho, hb⟩⟩
    · rw [if_neg ho] at hb
      exact ⟨hr, .inl ⟨.orderViolation, by simpa using hb.symm⟩⟩

/-- An edge in order, in RUN, runs its rule (R95). -/
theorem acceptEdge_of_ready {k : EventKind} {pos : Nat} {s : State} {body : State → Result}
    (hr : s.refused = none) (ha : acceptance s.phase k = .accepted) (ho : ∀ p, s.lastPos = some p → p < pos) :
    acceptEdge k pos s body = body (s.consume.noteEdge pos) := by
  unfold acceptEdge
  rw [accept_of_clear hr]
  simp [ha, (inOrder_iff s pos).mpr ho]

theorem isReset_iff (rate d : Nat) : isReset rate d = true ↔ d * 1000000 > 4000 * rate := by
  simp [isReset, longer, T_RESET]

theorem longer_iff (rate d T : Nat) : longer rate d T = true ↔ T * rate < d * 1000000 := by
  simp [longer]

theorem shorter_iff (rate d T : Nat) : shorter rate d T = true ↔ d * 1000000 < T * rate := by
  simp [shorter]

theorem classify_zero_iff (rate d : Nat) :
    classify rate d = some false ↔ 3000 * rate < d * 1000000 ∧ d * 1000000 < 5000 * rate := by
  unfold classify
  simp only [Bool.and_eq_true, longer_iff, shorter_iff, T0_LO, T0_HI, T1_LO, T1_HI]
  split
  · simp_all
  · rename_i h
    split <;> simp_all

theorem classify_one_iff (rate d : Nat) :
    classify rate d = some true ↔ 6000 * rate < d * 1000000 ∧ d * 1000000 < 8000 * rate := by
  unfold classify
  simp only [Bool.and_eq_true, longer_iff, shorter_iff, T0_LO, T0_HI, T1_LO, T1_HI]
  split
  · simp; omega
  · split <;> simp_all

theorem resetStart_eq_some {s : State} {pos r : Nat} (h : resetStart s pos = some r) :
    s.lastRising = some r ∧ ∃ rate, s.rate = some rate ∧ isReset rate (samplesSince r pos) = true := by
  unfold resetStart at h
  split at h
  · rename_i rate q hrate hris
    split at h
    · rename_i hres
      obtain rfl : q = r := by simpa using h
      exact ⟨hris, rate, hrate, hres⟩
    · simp at h
  · simp at h

theorem bitAt_eq_some {s : State} {pos f : Nat} {v : Bool} (h : bitAt s pos = some (f, v)) :
    s.lastFalling = some f ∧ ∃ rate, s.rate = some rate ∧ classify rate (samplesSince f pos) = some v := by
  unfold bitAt at h
  split at h
  · rename_i rate q hrate hfal
    simp only [Option.map_eq_some_iff, Prod.mk.injEq] at h
    obtain ⟨v', hc, rfl, rfl⟩ := h
    exact ⟨hfal, rate, hrate, hc⟩
  · simp at h

end Sys2Proof.Machine
end

