-- ==== Sys2Proof/Laws/Words.lean ====
section
/-! SUPPORT. What finishing a word can do (R147, R148), and the exactness of the accumulator (R146). -/

namespace Sys2Proof.Machine

variable (s : State) (pos : Nat)

/-- With 16 bits the word completes. -/
theorem State.finish_of_sixteen (h : s.bitCount = 16) : s.finishIfComplete pos = s.completeWord pos := if_pos h

/-- With any other count nothing happens. -/
theorem State.finish_of_ne_sixteen (h : s.bitCount ≠ 16) : s.finishIfComplete pos = s := if_neg h

@[simp] theorem State.finish_phase : (s.finishIfComplete pos).phase = s.phase := by
  by_cases h : s.bitCount = 16
  · simp [State.finish_of_sixteen s pos h]
  · simp [State.finish_of_ne_sixteen s pos h]

@[simp] theorem State.finish_rate : (s.finishIfComplete pos).rate = s.rate := by
  by_cases h : s.bitCount = 16
  · simp [State.finish_of_sixteen s pos h]
  · simp [State.finish_of_ne_sixteen s pos h]

@[simp] theorem State.finish_lastRising : (s.finishIfComplete pos).lastRising = s.lastRising := by
  by_cases h : s.bitCount = 16
  · simp [State.finish_of_sixteen s pos h]
  · simp [State.finish_of_ne_sixteen s pos h]

@[simp] theorem State.finish_lastFalling : (s.finishIfComplete pos).lastFalling = s.lastFalling := by
  by_cases h : s.bitCount = 16
  · simp [State.finish_of_sixteen s pos h]
  · simp [State.finish_of_ne_sixteen s pos h]

@[simp] theorem State.finish_commandStart : (s.finishIfComplete pos).commandStart = s.commandStart := by
  by_cases h : s.bitCount = 16
  · simp [State.finish_of_sixteen s pos h]
  · simp [State.finish_of_ne_sixteen s pos h]

@[simp] theorem State.finish_wordStart : (s.finishIfComplete pos).wordStart = s.wordStart := by
  by_cases h : s.bitCount = 16
  · simp [State.finish_of_sixteen s pos h]
  · simp [State.finish_of_ne_sixteen s pos h]

@[simp] theorem State.finish_content : (s.finishIfComplete pos).content = s.content := by
  by_cases h : s.bitCount = 16
  · simp [State.finish_of_sixteen s pos h]
  · simp [State.finish_of_ne_sixteen s pos h]

@[simp] theorem State.finish_bitCount : (s.finishIfComplete pos).bitCount = s.bitCount := by
  by_cases h : s.bitCount = 16
  · simp [State.finish_of_sixteen s pos h]
  · simp [State.finish_of_ne_sixteen s pos h]

@[simp] theorem State.finish_fault : (s.finishIfComplete pos).fault = s.fault := by
  by_cases h : s.bitCount = 16
  · simp [State.finish_of_sixteen s pos h]
  · simp [State.finish_of_ne_sixteen s pos h]

@[simp] theorem State.finish_refused : (s.finishIfComplete pos).refused = s.refused := by
  by_cases h : s.bitCount = 16
  · simp [State.finish_of_sixteen s pos h]
  · simp [State.finish_of_ne_sixteen s pos h]

@[simp] theorem State.finish_lastPos : (s.finishIfComplete pos).lastPos = s.lastPos := by
  by_cases h : s.bitCount = 16
  · simp [State.finish_of_sixteen s pos h]
  · simp [State.finish_of_ne_sixteen s pos h]

@[simp] theorem State.finish_input : (s.finishIfComplete pos).input = s.input := by
  by_cases h : s.bitCount = 16
  · simp [State.finish_of_sixteen s pos h]
  · simp [State.finish_of_ne_sixteen s pos h]

@[simp] theorem State.finish_eventIndex : (s.finishIfComplete pos).eventIndex = s.eventIndex := by
  by_cases h : s.bitCount = 16
  · simp [State.finish_of_sixteen s pos h]
  · simp [State.finish_of_ne_sixteen s pos h]

/-- A shift of the accumulator below 2 to the count, with at most 15 bits in it, loses nothing. -/
theorem accumulator_shift (c : CmdWord) (n : Nat) (v : Bool) (h : c.toNat < 2 ^ n) (hn : n ≤ 15) :
    (c * 2 + (if v then 1 else 0)).toNat = c.toNat * 2 + (if v then 1 else 0) ∧
      (c * 2 + (if v then 1 else 0)).toNat < 2 ^ (n + 1) := by
  have h2 : 2 ^ n ≤ 2 ^ 15 := Nat.pow_le_pow_right (by decide) hn
  have h3 : 2 ^ (n + 1) = 2 * 2 ^ n := by rw [Nat.pow_succ]; omega
  cases v <;> simp [BitVec.toNat_add, BitVec.toNat_mul] <;> omega

end Sys2Proof.Machine
end

