-- ==== Sys2Proof/Laws/Exec.lean ====
section
/-! SUPPORT. Everything an instruction, and a step, can do when it answers a next state, said once. -/

namespace Sys2Proof.Machine

/-- The effects: a refusal mark, or the one effect of the instruction, with the checks it passed. -/
inductive Effect (s : State) : Instr → State → Prop where
  | refused (i : Instr) (c : RefusalCause) : Effect s i (s.markRefused c)
  | riseFr (pos : Nat) (hp : s.phase = .run) (ho : ∀ p, s.lastPos = some p → p < pos) :
      Effect s (.riseFr pos) ((s.consume.noteEdge pos).noteRising pos)
  | resetFound (pos r : Nat) (hp : s.phase = .run) (ho : ∀ p, s.lastPos = some p → p < pos)
      (hr : resetStart s pos = some r) :
      Effect s (.fallFr pos) ((s.consume.noteEdge pos).beginFrame r pos)
  | noReset (pos : Nat) (hp : s.phase = .run) (ho : ∀ p, s.lastPos = some p → p < pos)
      (hr : resetStart s pos = none) :
      Effect s (.fallFr pos) ((s.consume.noteEdge pos).noteFalling pos)
  | riseRb (pos : Nat) (hp : s.phase = .run) (ho : ∀ p, s.lastPos = some p → p < pos) :
      Effect s (.riseRb pos) (s.consume.noteEdge pos)
  | bitRead (pos f : Nat) (v : Bool) (hp : s.phase = .run) (ho : ∀ p, s.lastPos = some p → p < pos)
      (hb : bitAt s pos = some (f, v)) :
      Effect s (.fallRb pos)
        ((((s.consume.noteEdge pos).appendBit f pos v).noteFalling pos).finishIfComplete pos)
  | noBit (pos : Nat) (hp : s.phase = .run) (ho : ∀ p, s.lastPos = some p → p < pos)
      (hb : bitAt s pos = none) :
      Effect s (.fallRb pos) (((s.consume.noteEdge pos).noteFalling pos).finishIfComplete pos)
  | eos (hp : s.phase = .run) : Effect s .eos (s.consume.toPhase .done)
  | setRate (rate : Nat) (hp : s.phase = .idle) (hv : 1 ≤ rate) :
      Effect s (.setRate rate) (s.consume.putRate rate)
  | startNoRate (hp : s.phase = .idle) (hn : s.rate = none) :
      Effect s .start (s.consume.raiseFault .missingSampleRate)
  | start (rate : Nat) (hp : s.phase = .idle) (hn : s.rate = some rate) :
      Effect s .start (s.consume.toPhase .run)

theorem run_of_accepted_edge {p : Phase} {k : EventKind} (hk : k = .rise ∨ k = .fall ∨ k = .eos)
    (h : acceptance p k = .accepted) : p = .run := by
  rcases hk with rfl | rfl | rfl <;> revert h <;> cases p <;> decide

theorem idle_of_accepted {p : Phase} {k : EventKind} (hk : k = .setRate ∨ k = .start)
    (h : acceptance p k = .accepted) : p = .idle := by
  rcases hk with rfl | rfl <;> revert h <;> cases p <;> decide

theorem execRiseFr_next {pos : Nat} {s s' : State} (h : execRiseFr pos s = .next s') :
    s.refused = none ∧ Effect s (.riseFr pos) s' := by
  obtain ⟨hr, ⟨c, rfl⟩ | ⟨ha, ho, hb⟩⟩ := acceptEdge_next h
  · exact ⟨hr, .refused _ c⟩
  · obtain rfl : _ = s' := by simpa using hb
    exact ⟨hr, .riseFr pos (run_of_accepted_edge (by simp) ha) ho⟩

theorem execFallFr_next {pos : Nat} {s s' : State} (h : execFallFr pos s = .next s') :
    s.refused = none ∧ Effect s (.fallFr pos) s' := by
  obtain ⟨hr, ⟨c, rfl⟩ | ⟨ha, ho, hb⟩⟩ := acceptEdge_next h
  · exact ⟨hr, .refused _ c⟩
  · have hp := run_of_accepted_edge (by simp) ha
    have he : resetStart (s.consume.noteEdge pos) pos = resetStart s pos := rfl
    rw [he] at hb
    cases hs : resetStart s pos with
    | some r =>
      rw [hs] at hb
      obtain rfl : _ = s' := by simpa using hb
      exact ⟨hr, .resetFound pos r hp ho hs⟩
    | none =>
      rw [hs] at hb
      obtain rfl : _ = s' := by simpa using hb
      exact ⟨hr, .noReset pos hp ho hs⟩

theorem execRiseRb_next {pos : Nat} {s s' : State} (h : execRiseRb pos s = .next s') :
    s.refused = none ∧ Effect s (.riseRb pos) s' := by
  obtain ⟨hr, ⟨c, rfl⟩ | ⟨ha, ho, hb⟩⟩ := acceptEdge_next h
  · exact ⟨hr, .refused _ c⟩
  · obtain rfl : _ = s' := by simpa using hb
    exact ⟨hr, .riseRb pos (run_of_accepted_edge (by simp) ha) ho⟩

theorem execFallRb_next {pos : Nat} {s s' : State} (h : execFallRb pos s = .next s') :
    s.refused = none ∧ Effect s (.fallRb pos) s' := by
  obtain ⟨hr, ⟨c, rfl⟩ | ⟨ha, ho, hb⟩⟩ := acceptEdge_next h
  · exact ⟨hr, .refused _ c⟩
  · have hp := run_of_accepted_edge (by simp) ha
    have he : bitAt (s.consume.noteEdge pos) pos = bitAt s pos := rfl
    rw [he] at hb
    cases hs : bitAt s pos with
    | some fv =>
      obtain ⟨f, v⟩ := fv
      rw [hs] at hb
      obtain rfl : _ = s' := by simpa using hb
      exact ⟨hr, .bitRead pos f v hp ho hs⟩
    | none =>
      rw [hs] at hb
      obtain rfl : _ = s' := by simpa using hb
      exact ⟨hr, .noBit pos hp ho hs⟩

theorem execEos_next {s s' : State} (h : execEos s = .next s') : s.refused = none ∧ Effect s .eos s' := by
  obtain ⟨hr, ⟨c, -, rfl⟩ | ⟨ha, hb⟩⟩ := accept_next h
  · exact ⟨hr, .refused _ c⟩
  · obtain rfl : _ = s' := by simpa using hb
    exact ⟨hr, .eos (run_of_accepted_edge (by simp) ha)⟩

theorem execSetRate_next {rate : Nat} {s s' : State} (h : execSetRate rate s = .next s') :
    s.refused = none ∧ Effect s (.setRate rate) s' := by
  obtain ⟨hr, ⟨c, -, rfl⟩ | ⟨ha, hb⟩⟩ := accept_next h
  · exact ⟨hr, .refused _ c⟩
  · by_cases hv : validRate rate = true
    · rw [if_pos hv] at hb
      obtain rfl : _ = s' := by simpa using hb
      exact ⟨hr, .setRate rate (idle_of_accepted (by simp) ha) (by simpa [validRate] using hv)⟩
    · rw [if_neg hv] at hb
      obtain rfl : _ = s' := by simpa using hb
      exact ⟨hr, .refused _ .invalidSampleRate⟩

theorem execStart_next {s s' : State} (h : execStart s = .next s') :
    s.refused = none ∧ Effect s .start s' := by
  obtain ⟨hr, ⟨c, -, rfl⟩ | ⟨ha, hb⟩⟩ := accept_next h
  · exact ⟨hr, .refused _ c⟩
  · have hp := idle_of_accepted (by simp) ha
    simp only [State.consume_rate] at hb
    cases hn : s.rate with
    | none =>
      rw [hn] at hb
      obtain rfl : _ = s' := by simpa using hb
      exact ⟨hr, .startNoRate hp hn⟩
    | some rate =>
      rw [hn] at hb
      obtain rfl : _ = s' := by simpa using hb
      exact ⟨hr, .start rate hp hn⟩

theorem execReserved_next {code : KindCode} {s s' : State} (h : execReserved code s = .next s') :
    s.refused = none ∧ Effect s (.reserved code) s' := by
  obtain ⟨hr, ⟨c, -, rfl⟩ | ⟨-, hb⟩⟩ := accept_next h
  · exact ⟨hr, .refused _ c⟩
  · obtain rfl : _ = s' := by simpa using hb
    exact ⟨hr, .refused _ .reservedEventKind⟩

/-- Everything an instruction can do. -/
theorem exec_next {i : Instr} {s s' : State} (h : exec i s = .next s') : s.refused = none ∧ Effect s i s' := by
  cases i with
  | riseFr pos => exact execRiseFr_next h
  | fallFr pos => exact execFallFr_next h
  | riseRb pos => exact execRiseRb_next h
  | fallRb pos => exact execFallRb_next h
  | eos => exact execEos_next h
  | setRate rate => exact execSetRate_next h
  | start => exact execStart_next h
  | reserved code => exact execReserved_next h

/-- Every instruction is its kind, admitted, with a rule that always answers a next state; the rule marks a refusal only
for an order or a rate (R187, R85), the reserved kind, which no phase accepts, apart. -/
theorem exec_is_admitted (i : Instr) (s : State) :
    ∃ body : State → Result, exec i s = accept (kindOfInstr i) s body ∧
      (kindOfInstr i = .reserved ∨ ∀ t, t.refused = none →
        ∃ u, body t = .next u ∧
          (u.refused = none ∨ u.refused = some .orderViolation ∨ u.refused = some .invalidSampleRate)) := by
  cases i with
  | riseFr pos =>
    refine ⟨_, by simp only [exec, execRiseFr, acceptEdge]; rfl, .inr fun t h => ?_⟩
    by_cases ho : inOrder s.lastPos pos = true <;> simp [ho, h]
  | fallFr pos =>
    refine ⟨_, by simp only [exec, execFallFr, acceptEdge]; rfl, .inr fun t h => ?_⟩
    by_cases ho : inOrder s.lastPos pos = true
    · cases resetStart (t.noteEdge pos) pos <;> simp [ho, h]
    · simp [ho]
  | riseRb pos =>
    refine ⟨_, by simp only [exec, execRiseRb, acceptEdge]; rfl, .inr fun t h => ?_⟩
    by_cases ho : inOrder s.lastPos pos = true <;> simp [ho, h]
  | fallRb pos =>
    refine ⟨_, by simp only [exec, execFallRb, acceptEdge]; rfl, .inr fun t h => ?_⟩
    by_cases ho : inOrder s.lastPos pos = true
    · cases bitAt (t.noteEdge pos) pos <;> simp [ho, h]
    · simp [ho]
  | eos => exact ⟨_, by simp only [exec, execEos]; rfl, .inr fun t h => ⟨_, rfl, by simp [h]⟩⟩
  | setRate rate =>
    refine ⟨_, by simp only [exec, execSetRate]; rfl, .inr fun t h => ?_⟩
    by_cases hv : validRate rate = true <;> simp [hv, h]
  | start =>
    refine ⟨_, by simp only [exec, execStart]; rfl, .inr fun t h => ?_⟩
    cases hn : t.rate <;> simp [h]
  | reserved code => exact ⟨_, by simp only [exec, execReserved]; rfl, .inl rfl⟩

theorem noEvent_ne_next (s s' : State) : noEvent s ≠ .next s' := by
  unfold noEvent
  cases s.refused with
  | some c => simp
  | none => cases s.phase <;> simp

/-- Everything a step can do: it had an event, and that event's instruction had its effect. -/
theorem step_next {s s' : State} (h : step s = .next s') :
    ∃ ev rest, s.input = ev :: rest ∧ s.refused = none ∧ Effect s (decode s.state ev) s' := by
  unfold step at h
  cases hi : s.input with
  | nil => rw [hi] at h; exact absurd h (noEvent_ne_next s s')
  | cons ev rest =>
    rw [hi] at h
    exact ⟨ev, rest, rfl, exec_next h⟩

end Sys2Proof.Machine
end

