-- ==== Sys2Proof/Laws/PerInstr.lean ====
section
/-! SUPPORT. The family KindOfEncode: the kind code that the encoder writes for an instruction stands for that
instruction's kind (R81). One lemma per constructor. -/

namespace Sys2Proof.Laws.KindOfEncode

/-- The encoder writes the kind code of the instruction's kind. -/
def Statement (i : Instr) : Prop := WellFormed i → kindOf (encode i).kind = kindOfInstr i

theorem riseFr (pos : Nat) : Statement (.riseFr pos) := fun _ => rfl
theorem fallFr (pos : Nat) : Statement (.fallFr pos) := fun _ => rfl
theorem riseRb (pos : Nat) : Statement (.riseRb pos) := fun _ => rfl
theorem fallRb (pos : Nat) : Statement (.fallRb pos) := fun _ => rfl
theorem eos : Statement .eos := fun _ => rfl
theorem setRate (rate : Nat) : Statement (.setRate rate) := fun _ => rfl
theorem start : Statement .start := fun _ => rfl
theorem reserved (code : KindCode) : Statement (.reserved code) := fun h => (kindOf_reserved_iff code).mpr h

end Sys2Proof.Laws.KindOfEncode
end

