-- ==== Sys2Proof/Laws/Run.lean ====
section
/-! SUPPORT. Runs of the machine, one step at a time. -/

namespace Sys2Proof.Machine

theorem run_zero (s : State) : Sys2Proof.core.run 0 s = .next s := rfl

theorem run_zero_next {s s' : State} (h : Sys2Proof.core.run 0 s = .next s') : s = s' :=
  Host.Outcome.next.inj h

theorem run_succ_of_next {k : Nat} {s t : State} (h : step s = .next t) :
    Sys2Proof.core.run (k + 1) s = Sys2Proof.core.run k t := by
  have h' : Sys2Proof.core.step s = .next t := h
  simp only [Host.Core.run, h']

/-- A run that goes on for one more step took a step first. -/
theorem run_succ_next {k : Nat} {s s' : State} (h : Sys2Proof.core.run (k + 1) s = .next s') :
    ∃ t, step s = .next t ∧ Sys2Proof.core.run k t = .next s' := by
  cases hs : step s with
  | next t => exact ⟨t, rfl, run_succ_of_next hs ▸ h⟩
  | fault r =>
    have h' : Sys2Proof.core.step s = .fault r := hs
    simp only [Host.Core.run, h'] at h
    cases h
  | refused r =>
    have h' : Sys2Proof.core.step s = .refused r := hs
    simp only [Host.Core.run, h'] at h
    cases h

/-- A property that every step keeps holds after any run (one induction for all). -/
theorem run_keeps {P : State → Prop} (hP : ∀ s s', P s → step s = .next s' → P s') :
    ∀ (k : Nat) (s s' : State), P s → Sys2Proof.core.run k s = .next s' → P s' := by
  intro k
  induction k with
  | zero => intro s s' h hr; exact run_zero_next hr ▸ h
  | succ k ih =>
    intro s s' h hr
    obtain ⟨t, hs, ht⟩ := run_succ_next hr
    exact ih t s' (hP s t h hs) ht

end Sys2Proof.Machine
end

