-- ==== Sys2Proof/Machine/Trace.lean ====
section
/-! DEFINITION. The textual trace syntax (R96): notation for event sequences, not part of a step. -/

namespace Sys2Proof.Machine

/-- One line of a trace (R96). -/
inductive TraceLine where
  | rate (n : Nat)
  | start
  | rise (p : Nat)
  | fall (p : Nat)
  | eos
  | pulse (p₁ p₂ : Nat)
  deriving DecidableEq, Repr

/-- The events of a line (R96): `pulse P1 P2` expands to `rise P1` and `fall P2`. -/
def TraceLine.events : TraceLine → List Event
  | .rate n => [{ kind := 0b011#3, pos := 0, rate := n }]
  | .start => [{ kind := 0b100#3, pos := 0, rate := 0 }]
  | .rise p => [{ kind := 0b000#3, pos := p, rate := 0 }]
  | .fall p => [{ kind := 0b001#3, pos := p, rate := 0 }]
  | .eos => [{ kind := 0b010#3, pos := 0, rate := 0 }]
  | .pulse p₁ p₂ => [{ kind := 0b000#3, pos := p₁, rate := 0 }, { kind := 0b001#3, pos := p₂, rate := 0 }]

/-- The text of a line before a `#`, which begins a comment (R96). -/
def stripComment : List Char → List Char
  | [] => []
  | '#' :: _ => []
  | c :: rest => c :: stripComment rest

/-- The words of a text, separated by blanks. -/
def traceWords : List Char → List Char → List (List Char)
  | [], [] => []
  | [], w => [w.reverse]
  | ' ' :: rest, [] => traceWords rest []
  | ' ' :: rest, w => w.reverse :: traceWords rest []
  | c :: rest, w => traceWords rest (c :: w)

/-- The value of a decimal numeral; no digits, or another character, is no numeral. -/
def decimal (cs : List Char) : Option Nat :=
  if cs = [] then none
  else cs.foldl (fun acc c => acc.bind fun a =>
    if '0'.toNat ≤ c.toNat ∧ c.toNat ≤ '9'.toNat then some (a * 10 + (c.toNat - '0'.toNat)) else none) (some 0)

/-- The line that a list of words is (R96). -/
def lineOfWords : List (List Char) → Option TraceLine
  | [w] =>
    if w = "start".toList then some .start
    else if w = "eos".toList then some .eos
    else none
  | [w, a] =>
    if w = "rate".toList then (decimal a).map .rate
    else if w = "rise".toList then (decimal a).map .rise
    else if w = "fall".toList then (decimal a).map .fall
    else none
  | [w, a, b] =>
    if w = "pulse".toList then (decimal a).bind fun p => (decimal b).map fun q => .pulse p q
    else none
  | _ => none

/-- The events of one line of text (R96): none for a line that is blank or only a comment; no answer for a line that
is not of the syntax (DESIGN CHOICE, log entry 16; safe). -/
def eventsOfLine (line : String) : Option (List Event) :=
  match traceWords (stripComment line.toList) [] with
  | [] => some []
  | ws => (lineOfWords ws).map TraceLine.events

/-- The events of a trace, one event line after another (R96). -/
def eventsOfTrace : List String → Option (List Event)
  | [] => some []
  | line :: rest => (eventsOfLine line).bind fun es => (eventsOfTrace rest).map fun more => es ++ more

end Sys2Proof.Machine
end

