-- ==== Sys2Proof/Tests/Slice0.lean ====
section
/-! SUPPORT. The model's own tests: expected values from the spec (file 95_test_vectors.md, or the rule named), and for
every statement with hypotheses a witness that meets them. -/

namespace Sys2Proof.Tests

open Sys2Proof.Machine

/-- The next state of an outcome, if it is one. -/
def nextOf : Result → Option State
  | .next s => some s
  | .fault _ => none
  | .refused _ => none

/-- RUN, FindReset, 10 kHz, a rising edge at 0. -/
def finding (input : List Event) : State :=
  { State.reset with
    phase := .run, rate := some 10000, lastRising := some 0, lastPos := some 0, input := input }

/-- RUN, ReadingBits, 10 kHz: a reset pulse from 0 to 50, then `n` bits read, the last falling edge at 50. -/
def reading (n : Nat) (content : CmdWord) (input : List Event) : State :=
  { State.reset with
    phase := .run, rate := some 10000, state := .readingBits, lastRising := some 0, lastFalling := some 50,
    lastPos := some 50, wordStart := 50, content := content, bitCount := n,
    out := [⟨0, 50, .bit, "RESET"⟩], input := input }

/-! ## Well-formedness -/

theorem test_reserved_code_4_is_ill_formed : ¬ WellFormed (.reserved 0b100#3) := by decide
theorem test_reserved_code_5_is_well_formed : WellFormed (.reserved 0b101#3) := by decide

/-! ## Decoding: words written out from the key table of R83 -/

theorem test_decode_RISE_FR : decodeTableWord 8 0b0000 = some (.riseFr 0) := by decide
theorem test_decode_FALL_FR : decodeTableWord 8 0b0001 = some (.fallFr 0) := by decide
theorem test_decode_RISE_RB : decodeTableWord 8 0b1000 = some (.riseRb 0) := by decide
theorem test_decode_FALL_RB : decodeTableWord 8 0b1001 = some (.fallRb 0) := by decide
theorem test_decode_EOS :
    decodeTableWord 8 0b0010 = some .eos ∧ decodeTableWord 8 0b1010 = some .eos := by decide
theorem test_decode_SET_RATE :
    decodeTableWord 8 0b0011 = some (.setRate 0) ∧ decodeTableWord 8 0b1011 = some (.setRate 0) := by decide
theorem test_decode_START :
    decodeTableWord 8 0b0100 = some .start ∧ decodeTableWord 8 0b1100 = some .start := by decide
theorem test_decode_RESERVED :
    decodeTableWord 8 0b0101 = some (.reserved 0b101#3) ∧ decodeTableWord 8 0b0110 = some (.reserved 0b110#3) ∧
    decodeTableWord 8 0b1111 = some (.reserved 0b111#3) := by decide
theorem test_word_above_key_is_no_row : decodeTableWord 8 0b10000 = none := by decide

/-- Program P1 event 3: `fall 50` has kind 001 and, in FindReset, key 0_001. -/
theorem test_decode_keeps_position : decode .findReset ⟨0b001#3, 50, 7⟩ = .fallFr 50 := by decide

/-- Program P1 event 0: `rate 10000` has kind 011. -/
theorem test_decode_keeps_rate : decode .readingBits ⟨0b011#3, 9, 10000⟩ = .setRate 10000 := by decide

/-- The rows of the opcode table as the table gives them: match and mask over the 4-bit key. -/
def opcodeRows : List (Nat × Nat) :=
  [(0x0, 0xF), (0x1, 0xF), (0x8, 0xF), (0x9, 0xF), (0x2, 0x7), (0x3, 0x7), (0x4, 0x7), (0x5, 0x7), (0x6, 0x7),
   (0x7, 0x7)]

/-- The rows cover every key exactly once. -/
theorem test_rows_cover_each_key_once :
    ∀ key < 16, (opcodeRows.filter fun r => key &&& r.2 == r.1).length = 1 := by decide

/-! ## Texts, codes, table, trace -/

theorem test_V_ENC_5 : hex4 0x857b = "0x857b" := by decide
theorem test_V_ENC_6 : hex4 0xabcd = "0xabcd" := by decide
theorem test_V_CMD_3 : cmdRead 0x8044 = "CD Stop" := by rfl
theorem test_codes :
    levelCode .bit = 0 ∧ levelCode .word = 1 ∧ levelCode .command = 2 ∧ faultCode .missingSampleRate = 1 ∧
    refusalCode .reservedEventKind = 16 ∧ refusalCode .phaseViolation = 17 ∧ refusalCode .orderViolation = 18 ∧
    refusalCode .invalidSampleRate = 19 ∧ refusalCode .eventAfterEnd = 20 := by decide
theorem test_written_annotation : (Annotation.mk 0 50 .bit "RESET").written = "Bit [0,50) \"RESET\"" := by decide
/-- R96: a pulse is a rise and a fall; `#` begins a comment. -/
theorem test_trace_lines :
    eventsOfTrace ["rate 10000", "start # begin", "", "pulse 0 50", "eos"] =
      some [⟨0b011#3, 0, 10000⟩, ⟨0b100#3, 0, 0⟩, ⟨0b000#3, 0, 0⟩, ⟨0b001#3, 50, 0⟩, ⟨0b010#3, 0, 0⟩] := by decide
theorem test_trace_rejects_capitals : eventsOfLine "Rise 5" = none := by decide

/-! ## One step each -/

/-- V-CFG-1 -/
theorem test_SET_RATE : (nextOf (exec (.setRate 10000) State.reset)).map (·.rate) = some (some 10000) := by decide
/-- V-CFG-2 -/
theorem test_SET_RATE_zero :
    nextOf (exec (.setRate 0) State.reset) = some { State.reset with refused := some .invalidSampleRate } := by decide
/-- V-CFG-5 -/
theorem test_START_without_rate :
    (nextOf (exec .start State.reset)).map (fun t => (t.phase, t.fault)) =
      some (.fault, some .missingSampleRate) := by decide
/-- V-CFG-4 -/
theorem test_START :
    (nextOf (exec .start { State.reset with rate := some 10000 })).map (fun t => (t.phase, t.state)) =
      some (.run, .findReset) := by decide
/-- V-FR-10: the second of two rising edges replaces the first. -/
theorem test_RISE_FR : (nextOf (exec (.riseFr 30) (finding []))).map (·.lastRising) = some (some 30) := by decide
/-- V-FR-2: no rising edge, no reset. -/
theorem test_FALL_FR_sentinel :
    (nextOf (exec (.fallFr 100000) { finding [] with lastRising := none })).map
      (fun t => (t.state, t.lastFalling, t.out)) = some (.findReset, some 100000, []) := by decide
/-- V-FR-3 and V-FR-4, from a rising edge at 0: 4000 µs is no reset, 4100 µs is one. -/
theorem test_FALL_FR_threshold :
    (nextOf (exec (.fallFr 40) (finding []))).map (fun t => (t.state, t.out)) = some (.findReset, []) ∧
    (nextOf (exec (.fallFr 41) (finding []))).map (fun t => (t.state, t.wordStart, t.lastFalling, t.out)) =
      some (.readingBits, 41, some 41, [⟨0, 41, .bit, "RESET"⟩]) := by decide
/-- V-RB-21: a RISE in ReadingBits changes nothing but the last position. -/
theorem test_RISE_RB :
    nextOf (exec (.riseRb 60) (reading 0 0 [])) =
      some { reading 0 0 [] with lastPos := some 60, eventIndex := 1 } := by decide
/-- V-RB-3, V-RB-8, V-RB-6 and W-B: bands 0 and 1, the gap, and 3000 µs. -/
theorem test_FALL_RB_bands :
    (nextOf (exec (.fallRb 81) (reading 0 0 []))).map (fun t => (t.content, t.bitCount)) = some (0, 1) ∧
    (nextOf (exec (.fallRb 111) (reading 0 0 []))).map (fun t => (t.content, t.bitCount)) = some (1, 1) ∧
    (nextOf (exec (.fallRb 105) (reading 0 0 []))).map (fun t => (t.bitCount, t.lastFalling)) = some (0, some 105) ∧
    (nextOf (exec (.fallRb 80) (reading 0 0 []))).map (fun t => (t.bitCount, t.lastFalling)) = some (0, some 80) := by
  decide
/-- The last bit of word 0x1000 (as in program P1, event 35): Bit, Word, Command. -/
theorem test_FALL_RB_sixteenth :
    (nextOf (exec (.fallRb 90) (reading 15 0x0800 []))).map (fun t => (t.state, t.content, t.bitCount, t.out.tail)) =
      some (.findReset, 0x1000, 16,
        [⟨50, 90, .bit, "0"⟩, ⟨50, 90, .word, "0x1000"⟩, ⟨0, 90, .command, "System ON"⟩]) := by decide
/-- V-EOS-1: end of stream in the middle of a word. -/
theorem test_EOS :
    (nextOf (exec .eos (reading 1 0 []))).map (fun t => (t.phase, t.state, t.bitCount, t.out.length)) =
      some (.done, .readingBits, 1, 1) := by decide
/-- V-EXC-1 -/
theorem test_RESERVED :
    nextOf (exec (.reserved 0b101#3) (finding [])) = some { finding [] with refused := some .reservedEventKind } := by
  decide
/-- V-EXC-2 -/
theorem test_order_violation :
    nextOf (exec (.fallFr 0) (finding [])) = some { finding [] with refused := some .orderViolation } := by decide
/-- V-EXC-4 -/
theorem test_phase_violation :
    nextOf (exec (.riseFr 0) State.reset) = some { State.reset with refused := some .phaseViolation } := by decide
/-- Every row's word runs as the first instruction after reset (log entry 9). -/
theorem test_fetch_words_run : ∀ w < 16, (nextOf (step (State.reset.withFetchWord 8 w))).isSome = true := by decide

/-! ## Witnesses: states and operands that meet the hypotheses of the statements -/

/-- An edge event. -/
abbrev riseEv (pos : Nat) : Event := ⟨0b000#3, pos, 0⟩
/-- An edge event. -/
abbrev fallEv (pos : Nat) : Event := ⟨0b001#3, pos, 0⟩

theorem finding_ready (input : List Event) : EdgeReady (finding input) 50 := by
  simp [EdgeReady, finding, State.reset]

theorem reading_ready (n : Nat) (c : CmdWord) (input : List Event) : EdgeReady (reading n c input) 90 := by
  simp [EdgeReady, reading, State.reset]

theorem reading_inv (input : List Event) : Inv (reading 0 0 input) := by
  constructor <;> simp [reading, State.reset]

theorem reading_inv_15 (input : List Event) : Inv (reading 15 0 input) := by
  constructor <;> simp [reading, State.reset]

theorem witness_StepRunsDecodedEvent : (finding [fallEv 50]).input = fallEv 50 :: [] := rfl

theorem witness_NoEventNoStep :
    ∀ p ∈ [Phase.idle, .run, .done, .fault], ∃ s : State, s.input = [] ∧ s.refused = none ∧ s.phase = p :=
  fun p _ => ⟨{ State.reset with phase := p }, rfl, rfl, rfl⟩

/-- A step that accepts its event and a step that refuses it. -/
theorem witness_StepConsumesExactlyAcceptedEvents :
    (∃ s', step (finding [riseEv 50]) = .next s' ∧ s'.refused = none) ∧
    (∃ s', step (finding [riseEv 0]) = .next s' ∧ s'.refused = some .orderViolation) :=
  ⟨⟨_, rfl, rfl⟩, ⟨_, rfl, rfl⟩⟩

theorem witness_LaterEventsDoNotMatter : (finding [fallEv 50]).input ≠ [] := by decide

theorem witness_DecodeEncodeRoundTrip :
    WellFormed (.reserved 0b111#3) ∧ inContext (.reserved 0b111#3) .readingBits = true ∧
    WellFormed (.fallRb 90) ∧ inContext (.fallRb 90) .readingBits = true := by decide

theorem witness_FetchWordRunsNext : 4 ≤ 8 ∧ 15 < 16 := by decide

/-- Also for StartWithoutRateFaults, and for BootReachesRun with the least rate. -/
theorem witness_SetRateWritesRate :
    State.reset.refused = none ∧ State.reset.phase = .idle ∧ State.reset.rate = none ∧ 1 ≤ 1 ∧
    (finding []).refused = none ∧ (finding []).phase = .run := by decide

theorem witness_StartWithRateEntersRun :
    ∀ p ∈ [Phase.idle, .run], ∃ s : State, s.refused = none ∧ s.rate = some 10000 ∧ s.phase = p :=
  fun p _ => ⟨{ State.reset with rate := some 10000, phase := p }, rfl, rfl, rfl⟩

theorem witness_RateFixedOnceStarted :
    (∃ s', step (finding [riseEv 50]) = .next s') ∧ (finding [riseEv 50]).phase ≠ .idle :=
  ⟨⟨_, rfl⟩, by decide⟩

/-- Also for RiseInReadingBitsIsDropped, EdgesInOrderNeverStop, EveryFallMovesLastFalling and RiseInFindResetRecordsEdge. -/
theorem witness_ready : EdgeReady (finding []) 50 ∧ EdgeReady (reading 0 0 []) 90 :=
  ⟨finding_ready [], reading_ready 0 0 []⟩

/-- The two clauses at the threshold: 41 samples are over it, 40 are not. -/
theorem witness_FallInFindResetTestsHighPhase :
    EdgeReady (finding []) 41 ∧ EdgeReady (finding []) 40 ∧ (finding []).rate = some 10000 ∧
    (finding []).lastRising = some 0 ∧ (41 - 0) * 1000000 > 4000 * 10000 ∧ ¬ (40 - 0) * 1000000 > 4000 * 10000 := by
  refine ⟨?_, ?_, rfl, rfl, by decide, by decide⟩ <;> simp [EdgeReady, finding, State.reset]

/-- The third clause: no rising edge yet. -/
theorem witness_FallInFindReset_sentinel :
    ∃ s : State, EdgeReady s 50 ∧ s.rate = some 10000 ∧ s.lastRising = none :=
  ⟨{ finding [] with lastRising := none, lastPos := none }, by simp [EdgeReady, finding, State.reset], rfl, rfl⟩

theorem witness_ResetAnnotatedExactlyOverThreshold :
    EdgeReady (finding []) 41 ∧ (1 : Nat) ≤ 10000 ∧ (finding []).rate = some 10000 ∧
    (finding []).lastRising = some 0 ∧ (∃ s', exec (.fallFr 41) (finding []) = .next s') ∧
    (∃ s', exec (.fallFr 40) (finding []) = .next s') ∧
    durUs 10000 (41 - 0) > 4000 ∧ ¬ durUs 10000 (40 - 0) > 4000 := by
  refine ⟨by simp [EdgeReady, finding, State.reset], by decide, rfl, rfl, ⟨_, rfl⟩, ⟨_, rfl⟩, ?_, ?_⟩ <;>
    norm_num [durUs, samplePeriodUs]

theorem witness_LastRisingWrittenOnlyByRise :
    ∃ s', step (finding [riseEv 50]) = .next s' ∧ s'.lastRising ≠ (finding [riseEv 50]).lastRising :=
  ⟨_, rfl, by decide⟩

theorem witness_FrameStartsWrittenOnlyByReset :
    ∃ s', step (finding [fallEv 50]) = .next s' ∧
      (s'.commandStart ≠ (finding [fallEv 50]).commandStart ∨ s'.wordStart ≠ (finding [fallEv 50]).wordStart) :=
  ⟨_, rfl, by decide⟩

/-- 40 samples are 4000 µs, in band 0 (W-B, C2); 70 are in band 1. Count 14 is the last short of the 16th bit. -/
theorem witness_ClassifiedBitIsAppended :
    EdgeReady (reading 14 0 []) 90 ∧ EdgeReady (reading 14 0 []) 120 ∧ (reading 14 0 []).rate = some 10000 ∧
    (reading 14 0 []).lastFalling = some 50 ∧ InBand 10000 (90 - 50) false ∧ InBand 10000 (120 - 50) true ∧
    (reading 14 0 []).bitCount < 15 := by
  refine ⟨reading_ready 14 0 [], by simp [EdgeReady, reading, State.reset], rfl, rfl, ?_, ?_, by decide⟩ <;>
    simp [InBand]

theorem witness_SixteenthBitCompletesWord :
    EdgeReady (reading 15 0 []) 90 ∧ (reading 15 0 []).rate = some 10000 ∧
    (reading 15 0 []).lastFalling = some 50 ∧ InBand 10000 (90 - 50) false ∧ (reading 15 0 []).bitCount = 15 :=
  ⟨reading_ready 15 0 [], rfl, rfl, by simp [InBand], rfl⟩

/-- The four bounds, 3000, 5000, 6000 and 8000 µs, are outside both bands (R142). -/
theorem witness_UnclassifiedIntervalIsIgnored :
    (∀ d ∈ [30, 50, 60, 80], ¬ InBand 10000 d false ∧ ¬ InBand 10000 d true) ∧
    EdgeReady (reading 15 0 []) 110 ∧ (reading 15 0 []).rate = some 10000 ∧
    (reading 15 0 []).lastFalling = some 50 ∧ 110 - 50 = 60 ∧ (reading 15 0 []).bitCount ≤ 15 := by
  refine ⟨by simp [InBand], by simp [EdgeReady, reading, State.reset], rfl, rfl, rfl, by decide⟩

/-- A classified bit, and a reset while a completed word is held. -/
theorem witness_AccumulatorWrittenOnlyByResetOrBit :
    (∃ s', step (reading 0 0 [fallEv 120]) = .next s' ∧ s'.content ≠ (reading 0 0 [fallEv 120]).content) ∧
    ∃ s s', s.bitCount = 16 ∧ step s = .next s' ∧ s'.bitCount ≠ s.bitCount :=
  ⟨⟨_, rfl, by decide⟩, ⟨{ finding [fallEv 50] with bitCount := 16 }, _, rfl, rfl, by decide⟩⟩

theorem witness_AccumulatorUpdateIsExact :
    Inv (reading 0 0 []) ∧ (reading 0 0 []).state = .readingBits ∧
    ∃ s', exec (.fallRb 90) (reading 0 0 []) = .next s' ∧ s'.bitCount ≠ (reading 0 0 []).bitCount :=
  ⟨reading_inv [], rfl, _, rfl, by decide⟩

/-- Also for StepEmitsNoneOneOrThree and StepKeepsSoundness, in the step that completes a word. -/
theorem witness_OnlySixteenthBitLeavesReadingBits :
    Inv (reading 15 0 [fallEv 90]) ∧ (reading 15 0 [fallEv 90]).state = .readingBits ∧
    ∃ s', step (reading 15 0 [fallEv 90]) = .next s' ∧ s'.state = .findReset :=
  ⟨reading_inv_15 _, rfl, _, rfl, rfl⟩

theorem witness_NoResetDetectedInReadingBits :
    (∃ s', step (reading 0 0 [fallEv 1050]) = .next s') ∧ (reading 0 0 [fallEv 1050]).state = .readingBits :=
  ⟨⟨_, rfl⟩, rfl⟩

theorem witness_EdgeOutsideWaitMaskHasNoEffect :
    (reading 0 0 [riseEv 90]).input = [riseEv 90] ∧ polarityOf (kindOf (riseEv 90).kind) = some .rising ∧
    Polarity.rising ∉ waitMask (reading 0 0 [riseEv 90]).state ∧ EdgeReady (reading 0 0 [riseEv 90]) 90 :=
  ⟨rfl, by decide, by decide, reading_ready 0 0 _⟩

/-- Also for BandsClassifyInMicroseconds; the least rate. -/
theorem witness_ComparisonsAreExact : 1 ≤ 1 := by decide

theorem witness_RateResolvesBands : 501 > 500 ∧ 1 > 0 := by decide

/-- A keypad code is open (V-CMD-8). -/
theorem witness_UnlistedCommandsAreOpen :
    (0x0581#16) ∉ [0x1000#16, 0x1080#16, 0x8044#16, 0x8045#16, 0x8084#16, 0x857b#16, 0x85fb#16] := by decide

theorem witness_RunsIgnoreEarlierOutput : ∃ s', Sys2Proof.core.run 1 (finding [fallEv 50]) = .next s' := ⟨_, rfl⟩

/-- Also for EosEndsSession and ReservedKindIsRefused: each phase. -/
theorem witness_PhasesAcceptByTable :
    ∀ p ∈ [Phase.idle, .run, .done, .fault], ∃ s : State, s.refused = none ∧ s.phase = p :=
  fun p _ => ⟨{ State.reset with phase := p }, rfl, rfl⟩

theorem witness_OnlyEosReachesDone :
    (finding [⟨0b010#3, 0, 0⟩]).phase ≠ .done ∧
    ∃ s', step (finding [⟨0b010#3, 0, 0⟩]) = .next s' ∧ s'.phase = .done :=
  ⟨by decide, _, rfl, rfl⟩

/-- The boundary: the position of the last edge itself. -/
theorem witness_EdgeOutOfOrderIsRefused :
    (finding []).refused = none ∧ (finding []).phase = .run ∧ (finding []).lastPos = some 0 ∧ 0 ≤ 0 := by decide

/-- Each clause of ChecksApplyInOrder: a marked state, and each phase with a last position of 0. -/
theorem witness_ChecksApplyInOrder :
    (∃ s : State, s.refused = some .orderViolation) ∧
    ∀ p ∈ [Phase.idle, .run, .done, .fault], ∃ s : State, s.refused = none ∧ s.phase = p ∧ s.lastPos = some 0 ∧ 0 ≤ 0 :=
  ⟨⟨{ State.reset with refused := some .orderViolation }, rfl⟩,
   fun p _ => ⟨{ State.reset with phase := p, lastPos := some 0 }, rfl, rfl, rfl, Nat.le_refl 0⟩⟩

theorem witness_FaultAndRefusalAreFinal :
    ∃ s t : State, s.phase = .fault ∧ t.refused ≠ none :=
  ⟨{ State.reset with phase := .fault }, { State.reset with refused := some .phaseViolation }, rfl, by decide⟩

theorem witness_FaultOnlyFromStart :
    ∃ s', step (sessionOf [⟨0b100#3, 0, 0⟩]) = .next s' ∧ s'.fault ≠ (sessionOf [⟨0b100#3, 0, 0⟩]).fault :=
  ⟨_, rfl, by decide⟩

theorem witness_RefusalWritesOnlyMark :
    ∃ s', step (sessionOf [riseEv 0]) = .next s' ∧ s'.refused ≠ none :=
  ⟨_, rfl, by decide⟩

theorem reading_matches (input : List Event) : AccumulatorMatchesOutput (reading 0 0 input) := by
  constructor <;> rfl

theorem witness_StepKeepsAccumulatorMatch :
    Inv (reading 0 0 [fallEv 90]) ∧ AccumulatorMatchesOutput (reading 0 0 [fallEv 90]) ∧
    ∃ s', step (reading 0 0 [fallEv 90]) = .next s' :=
  ⟨reading_inv _, reading_matches _, _, rfl⟩

/-- A state one bit short of a word, with its 15 bits in the output. -/
def almostWhole : State :=
  { reading 15 0 [fallEv 90] with
    out := ⟨0, 1, .bit, "RESET"⟩ :: List.replicate 15 ⟨1, 2, .bit, "0"⟩ }

/-- The step here completes a word, so it is the one that could break the statement. -/
theorem witness_StepKeepsWordsWhole :
    Inv almostWhole ∧ AccumulatorMatchesOutput almostWhole ∧ WordsAreWhole almostWhole.out ∧
    ∃ s', step almostWhole = .next s' ∧ s'.state = .findReset := by
  refine ⟨?_, ⟨rfl, rfl⟩, ?_, _, rfl, rfl⟩
  · constructor <;> simp [almostWhole, reading, State.reset]
  · intro before a after h
    have hb : ∀ x ∈ almostWhole.out, x.level = .bit := by decide
    have ha : a.level = .bit := hb a (by rw [h]; simp)
    simp [ha]

theorem witness_HostActionsKeepSoundness : Inv (reading 0 0 []) := reading_inv []

theorem witness_EveryRunEmitsWholeWords :
    ∃ s, Sys2Proof.core.run 2 (sessionOf [⟨0b011#3, 0, 10000⟩, ⟨0b100#3, 0, 0⟩]) = .next s := ⟨_, rfl⟩

/-- A good end of a run (R173): the state EOS leaves. -/
theorem test_good_end : ∃ t, exec .eos (finding []) = .next t ∧ GoodEnd t := ⟨_, rfl, rfl, rfl, rfl⟩

end Sys2Proof.Tests
end

section
/-! The state family: the values of a block reset (R50, R210), and an edge outside the wait mask (R51). First the facts
about the decoder, the mask, acceptance and the step that these statements need. -/

namespace Sys2Proof

/-- RISE keeps its key 1_000 in ReadingBits (R83). -/
theorem decode_readingBits_of_rise {ev : Event} (h : kindOf ev.kind = .rise) :
    decode .readingBits ev = .riseRb ev.pos := by
  simp [decode_by_kind, h]

end Sys2Proof

namespace Sys2Proof.Machine

/-! ## Block reset -/

theorem State.reset_eq_sessionOf : State.reset = sessionOf [] := rfl

/-- A block reset forgets everything but the events that wait at the port. -/
theorem State.blockReset_eq_sessionOf (s : State) : s.blockReset = sessionOf s.input := rfl

/-- Settles O1: `State.reset` and a block reset differ at most in the events at the port, which R50 does not list. -/
theorem blockResetGivesListedValues : Obligations.BlockResetGivesListedValues := by
  intro s t ht
  obtain ⟨events, rfl⟩ : ∃ events, t = sessionOf events := by
    obtain rfl | rfl : t = State.reset ∨ t = s.blockReset := by simpa using ht
    · exact ⟨[], State.reset_eq_sessionOf⟩
    · exact ⟨s.input, s.blockReset_eq_sessionOf⟩
  simp [sessionOf, State.reset]

/-! ## The wait mask -/

theorem mem_waitMask_findReset (p : Polarity) : p ∈ waitMask .findReset := by
  cases p <;> simp [waitMask]

theorem mem_waitMask_readingBits_iff (p : Polarity) : p ∈ waitMask .readingBits ↔ p = .falling := by
  simp [waitMask]

/-- The one case outside the mask: a rising edge in ReadingBits (R51, R151). -/
theorem notMem_waitMask_iff (S : DecoderState) (p : Polarity) :
    p ∉ waitMask S ↔ S = .readingBits ∧ p = .rising := by
  cases S with
  | findReset => simp [mem_waitMask_findReset]
  | readingBits => cases p <;> simp [mem_waitMask_readingBits_iff]

theorem polarityOf_eq_rising_iff (k : EventKind) : polarityOf k = some .rising ↔ k = .rise := by
  cases k <;> simp [polarityOf]

/-! ## Edges the block can take, and the step -/

/-- With an event at the port, a step is the instruction of that event (R95). -/
theorem step_of_input {s : State} {ev : Event} {rest : List Event} (h : s.input = ev :: rest) :
    step s = exec (decode s.state ev) s := by
  simp only [step, h]

/-- An edge the block can take runs its rule (R95, R180). -/
theorem acceptEdge_of_edgeReady {k : EventKind} {pos : Nat} {s : State} {body : State → Result}
    (hk : k = .rise ∨ k = .fall) (hs : EdgeReady s pos) :
    acceptEdge k pos s body = body (s.consume.noteEdge pos) := by
  obtain ⟨hclear, hrun, horder⟩ := hs
  refine acceptEdge_of_ready hclear ?_ horder
  rcases hk with rfl | rfl <;> simp [hrun]

/-- RISE in ReadingBits leaves only its position as the last one (R151). -/
theorem exec_riseRb_of_edgeReady {s : State} {pos : Nat} (hs : EdgeReady s pos) :
    exec (.riseRb pos) s = .next (s.consume.noteEdge pos) :=
  acceptEdge_of_edgeReady (.inl rfl) hs

/-- What taking an edge from the port leaves, field by field (R32, R44). -/
theorem State.noteEdge_consume_of_input {s : State} {ev : Event} {rest : List Event} (h : s.input = ev :: rest)
    (pos : Nat) :
    s.consume.noteEdge pos = { s with lastPos := some pos, input := rest, eventIndex := s.eventIndex + 1 } := by
  simp [State.noteEdge, State.consume, h]

/-- Settles O28: an edge outside the mask is a RISE in ReadingBits, which is accepted and has no further rule. -/
theorem edgeOutsideWaitMaskHasNoEffect : Obligations.EdgeOutsideWaitMaskHasNoEffect := by
  refine ⟨mem_waitMask_findReset, mem_waitMask_readingBits_iff, ?_⟩
  intro s ev rest p hin hpol hmask hready
  obtain ⟨hreading, rfl⟩ := (notMem_waitMask_iff s.state p).mp hmask
  have hrise : kindOf ev.kind = .rise := (polarityOf_eq_rising_iff _).mp hpol
  calc step s = exec (decode s.state ev) s := step_of_input hin
    _ = exec (.riseRb ev.pos) s := by rw [hreading, decode_readingBits_of_rise hrise]
    _ = .next (s.consume.noteEdge ev.pos) := exec_riseRb_of_edgeReady hready
    _ = .next { s with lastPos := some ev.pos, input := rest, eventIndex := s.eventIndex + 1 } := by
      rw [State.noteEdge_consume_of_input hin]

end Sys2Proof.Machine
end

section
/-! PROOF of O35: in the command table the last definition of a code is the one that is read (R65). -/

namespace Sys2Proof.Machine

@[simp] theorem lastDefinition_nil (w : CmdWord) : lastDefinition w [] = none := rfl

/-- The later rows are asked first, and the row itself only where they leave its code undefined (R65). -/
@[simp] theorem lastDefinition_cons (w : CmdWord) (row : CmdWord × String) (rows : List (CmdWord × String)) :
    lastDefinition w (row :: rows) =
      (lastDefinition w rows).or (if row.1 = w then some row.2 else none) := by
  cases hlater : lastDefinition w rows <;> simp only [lastDefinition, hlater, Option.or]

/-- A code has no last definition exactly where no row defines it (R63). -/
theorem lastDefinition_eq_none_iff {w : CmdWord} {rows : List (CmdWord × String)} :
    lastDefinition w rows = none ↔ w ∉ rows.map Prod.fst := by
  induction rows with
  | nil => simp
  | cons row rows ih =>
    rw [lastDefinition_cons, Option.or_eq_none_iff, ih, List.map_cons, List.mem_cons, not_or, and_comm]
    simp [eq_comm]

/-- A row wins when no later row defines its code again, whatever stands before it (R65). -/
theorem lastDefinition_append_cons {w : CmdWord} {text : String} {later : List (CmdWord × String)}
    (hlast : w ∉ later.map Prod.fst) (earlier : List (CmdWord × String)) :
    lastDefinition w (earlier ++ (w, text) :: later) = some text := by
  induction earlier with
  | nil => simp [lastDefinition_eq_none_iff.mpr hlast]
  | cons row earlier ih => rw [List.cons_append, lastDefinition_cons, ih, Option.some_or]

/-- Reading a code whose last definition is known answers that definition (R62). -/
theorem cmdRead_of_lastDefinition {w : CmdWord} {text : String}
    (h : lastDefinition w tableDefinitions = some text) : cmdRead w = text := by
  simp only [cmdRead, cmdTable, h]

/-- A row of the table is what its code reads when no later row defines the code again (R62, R65). -/
theorem cmdRead_of_lastRow {w : CmdWord} {text : String} (earlier : List (CmdWord × String))
    {later : List (CmdWord × String)} (htable : tableDefinitions = earlier ++ (w, text) :: later)
    (hlast : w ∉ later.map Prod.fst) : cmdRead w = text :=
  cmdRead_of_lastDefinition (htable ▸ lastDefinition_append_cons hlast earlier)

/-- Settles O35: each listed row is the last one of its code; at 0x8044 and 0x8045 the overridden rows, the table's
first two, stand before it. -/
theorem listedCommandsRead : Obligations.ListedCommandsRead :=
  ⟨cmdRead_of_lastRow (tableDefinitions.take 2) rfl (by decide),
   cmdRead_of_lastRow (tableDefinitions.take 3) rfl (by decide),
   cmdRead_of_lastRow (tableDefinitions.take 4) rfl (by decide),
   cmdRead_of_lastRow (tableDefinitions.take 5) rfl (by decide),
   cmdRead_of_lastRow (tableDefinitions.take 6) rfl (by decide),
   cmdRead_of_lastRow (tableDefinitions.take 7) rfl (by decide),
   cmdRead_of_lastRow (tableDefinitions.take 8) rfl (by decide)⟩

end Sys2Proof.Machine
end

section
/-! The encoding family: the key table (R83), the Word text (R92), and what one step emits (R94). First what the
decoder answers for the kinds whose meaning the state does not change, the digits of a word, and the output that
finishing a word leaves. -/

namespace Sys2Proof

/-! ## The key table -/

/-- The context bit is bit 3 of the key, the kind the bits below it (R83). -/
theorem decodeKey_toNat (S : DecoderState) (code : KindCode) :
    (decodeKey S code).toNat = 8 * (contextBit S).toNat + code.toNat := by
  rw [decodeKey, BitVec.toNat_append, ← Nat.shiftLeft_add_eq_or_of_lt code.isLt, Nat.shiftLeft_eq, mul_comm]

/-- Every kind but RISE and FALL means the same in both decoder states (R83). -/
theorem decode_of_not_edge {ev : Event} (hrise : kindOf ev.kind ≠ .rise) (hfall : kindOf ev.kind ≠ .fall)
    (S T : DecoderState) : decode S ev = decode T ev := by
  rw [decode_by_kind, decode_by_kind]
  cases hk : kindOf ev.kind with
  | rise => exact absurd hk hrise
  | fall => exact absurd hk hfall
  | eos | setRate | start | reserved => cases S <;> cases T <;> rfl

/-- A reserved code decodes to its own refusal row in either decoder state (R82). -/
theorem decode_of_reserved {ev : Event} (h : kindOf ev.kind = .reserved) (S : DecoderState) :
    decode S ev = .reserved ev.kind := by
  rw [decode_by_kind, h]
  cases S <;> rfl

/-- Only in ReadingBits does an event decode to FALL.RB (R83). -/
theorem state_of_decode_fallRb {S : DecoderState} {ev : Event} {pos : Nat} (h : decode S ev = .fallRb pos) :
    S = .readingBits := by
  cases S with
  | readingBits => rfl
  | findReset =>
    rw [decode_by_kind] at h
    cases hk : kindOf ev.kind <;> simp [hk] at h

/-- Settles O6: the edges by the key table in each state, the other kinds by the key table in FindReset, since the
state does not matter to them. -/
theorem keyTableDecodes : Obligations.KeyTableDecodes := by
  refine ⟨fun code => ⟨?_, ?_⟩, fun S pos rate => ?_⟩
  · simp [decodeKey_toNat, contextBit]
  · simp [decodeKey_toNat, contextBit]
  · have same_as_findReset (code : KindCode) (hrise : kindOf code ≠ .rise) (hfall : kindOf code ≠ .fall) :
        decode S ⟨code, pos, rate⟩ = decode .findReset ⟨code, pos, rate⟩ :=
      decode_of_not_edge hrise hfall S .findReset
    have codes_reserved : ∀ code ∈ [0b101#3, 0b110#3, 0b111#3], kindOf code = .reserved := by decide
    exact ⟨decode_by_kind .findReset _, decode_by_kind .findReset _,
      decode_by_kind .readingBits _, decode_by_kind .readingBits _,
      (same_as_findReset _ (by decide) (by decide)).trans (decode_by_kind .findReset _),
      (same_as_findReset _ (by decide) (by decide)).trans (decode_by_kind .findReset _),
      (same_as_findReset _ (by decide) (by decide)).trans (decode_by_kind .findReset _),
      fun code hcode => decode_of_reserved (ev := ⟨code, pos, rate⟩) (codes_reserved code hcode) S⟩

end Sys2Proof

namespace Sys2Proof.Machine

/-! ## The Word text -/

/-- The four hexadecimal digits of a word, the most significant first. -/
def wordDigits (w : CmdWord) : List (BitVec 4) :=
  [w.extractLsb' 12 4, w.extractLsb' 8 4, w.extractLsb' 4 4, w.extractLsb' 0 4]

/-- The number that a list of hexadecimal digits writes, the most significant first. -/
def digitsValue (ds : List (BitVec 4)) : Nat :=
  ds.foldl (fun acc d => acc * 16 + d.toNat) 0

/-- The characters of a Word text (R92). -/
theorem hex4_toList (w : CmdWord) : (hex4 w).toList = '0' :: 'x' :: (wordDigits w).map hexDigit := by
  simp [hex4, wordDigits]

/-- The digits of a word write the word. -/
theorem digitsValue_wordDigits (w : CmdWord) : digitsValue (wordDigits w) = w.toNat := by
  have hlt : w.toNat < 65536 := w.isLt
  simp only [digitsValue, wordDigits, List.foldl, BitVec.extractLsb'_toNat, Nat.shiftRight_eq_div_pow]
  omega

/-- Reading a digit's character gives the digit. -/
theorem hexValue_hexDigit (d : BitVec 4) : hexValue (hexDigit d) = some d.toNat := by
  revert d
  decide

/-- After `0x`, written digits parse to their value: every step of the parse succeeds. -/
theorem parseHex_of_digits {t : String} {ds : List (BitVec 4)} (h : t.toList = '0' :: 'x' :: ds.map hexDigit) :
    parseHex t = some (digitsValue ds) := by
  simp only [parseHex, h, List.foldl_map, digitsValue]
  exact List.foldl_hom some fun acc d => by simp [hexValue_hexDigit]

/-- Settles O34: the text is `0x` and the four digits of the word, and digits parse to the number they write. -/
theorem wordTextRoundTrips : Obligations.WordTextRoundTrips := by
  intro w
  constructor
  · simp [← String.length_toList, hex4_toList, wordDigits]
  · rw [parseHex_of_digits (hex4_toList w), digitsValue_wordDigits]

/-! ## What a step emits -/

/-- A completed word puts out its Word and its Command annotation (R148). -/
theorem State.finish_out_of_sixteen (s : State) (pos : Nat) (h : s.bitCount = 16) :
    (s.finishIfComplete pos).out =
      s.out ++ [⟨s.wordStart, pos, .word, hex4 s.content⟩, ⟨s.commandStart, pos, .command, cmdRead s.content⟩] := by
  rw [State.finish_of_sixteen s pos h, State.completeWord_out]

/-- Short of a word, finishing puts out nothing (R147). -/
theorem State.finish_out_of_ne_sixteen (s : State) (pos : Nat) (h : s.bitCount ≠ 16) :
    (s.finishIfComplete pos).out = s.out := by
  rw [State.finish_of_ne_sixteen s pos h]

theorem bitText_eq (v : Bool) : bitText v = "0" ∨ bitText v = "1" := by
  cases v
  · exact .inl rfl
  · exact .inr rfl

/-- What one step may emit (R94): nothing, one Bit, or a Bit, a Word and a Command in this order. Only a Bit that stands
alone can be a RESET. -/
inductive IsEmission : List Annotation → Prop where
  | nothing : IsEmission []
  | oneBit (a : Annotation) (ha : a.level = .bit) (htext : a.text = "RESET" ∨ a.text = "0" ∨ a.text = "1") :
      IsEmission [a]
  | wholeWord (a b c : Annotation) (ha : a.level = .bit) (htext : a.text = "0" ∨ a.text = "1")
      (hb : b.level = .word) (hc : c.level = .command) : IsEmission [a, b, c]

/-- A FALL.RB that delivers a bit emits it, and with the 16th one the word too (R144, R148). -/
theorem emission_of_bitRead (s : State) (pos f : Nat) (v : Bool) :
    ∃ new, (((s.appendBit f pos v).noteFalling pos).finishIfComplete pos).out = s.out ++ new ∧ IsEmission new := by
  by_cases h16 : ((s.appendBit f pos v).noteFalling pos).bitCount = 16
  · refine ⟨[⟨f, pos, .bit, bitText v⟩, ⟨s.wordStart, pos, .word, hex4 (s.appendBit f pos v).content⟩,
      ⟨s.commandStart, pos, .command, cmdRead (s.appendBit f pos v).content⟩], ?_,
      .wholeWord _ _ _ rfl (bitText_eq v) rfl rfl⟩
    rw [State.finish_out_of_sixteen _ _ h16]
    simp
  · refine ⟨[⟨f, pos, .bit, bitText v⟩], ?_, .oneBit _ rfl (.inr (bitText_eq v))⟩
    rw [State.finish_out_of_ne_sixteen _ _ h16]
    simp

/-- Every effect appends one of the three shapes to the output. At most 15 bits must be read before a FALL.RB: with 16
an unclassified interval would emit a Word and a Command without a Bit. -/
theorem Effect.emission {s s' : State} {i : Instr} (h : Effect s i s')
    (hcount : ∀ pos, i = .fallRb pos → s.bitCount ≤ 15) :
    ∃ new, s'.out = s.out ++ new ∧ IsEmission new := by
  cases h with
  | resetFound pos r => exact ⟨[⟨r, pos, .bit, resetText⟩], by simp, .oneBit _ rfl (.inl rfl)⟩
  | bitRead pos f v => exact emission_of_bitRead (s.consume.noteEdge pos) pos f v
  | noBit pos =>
    have hle : s.bitCount ≤ 15 := hcount pos rfl
    have hne : ((s.consume.noteEdge pos).noteFalling pos).bitCount ≠ 16 := by
      rw [State.noteFalling_bitCount, State.noteEdge_bitCount, State.consume_bitCount]
      omega
    exact ⟨[], by rw [State.finish_out_of_ne_sixteen _ _ hne]; simp, .nothing⟩
  | refused | riseFr | noReset | riseRb | eos | setRate | startNoRate | start => exact ⟨[], by simp, .nothing⟩

/-- What a step emits in a sound state (R94): a FALL.RB stands only in ReadingBits, where at most 15 bits are read
(R49). -/
theorem step_emission {s s' : State} (hinv : Inv s) (h : step s = .next s') :
    ∃ new, s'.out = s.out ++ new ∧ IsEmission new := by
  obtain ⟨ev, _, _, _, heffect⟩ := step_next h
  refine heffect.emission fun pos hfall => ?_
  obtain ⟨hcount, _⟩ := hinv.reading (state_of_decode_fallRb hfall)
  exact hcount

/-- Settles O37: the shapes of an emission are those of R94. -/
theorem stepEmitsNoneOneOrThree : Obligations.StepEmitsNoneOneOrThree := by
  intro s s' hinv h
  obtain ⟨new, hout, hnew⟩ := step_emission hinv h
  cases hnew with
  | nothing => exact .inl (by simpa using hout)
  | oneBit a ha htext => exact .inr (.inl ⟨a, ha, htext, hout⟩)
  | wholeWord a b c ha htext hb hc => exact .inr (.inr ⟨a, b, c, ha, htext, hb, hc, hout⟩)

end Sys2Proof.Machine
end

section
/-! The FindReset family: RISE records the rising edge (R120), FALL tests the high phase that it ends (R121 to R125).
First the reset test on the state, and what an edge the block can take does in FindReset. -/

namespace Sys2Proof.Machine

/-! ## The high phase that a FALL ends -/

/-- After a rising edge at `r`, a FALL completes a reset pulse exactly over the strict threshold (R121). -/
theorem resetStart_of_rising {s : State} {rate r : Nat} (hrate : s.rate = some rate) (hrising : s.lastRising = some r)
    (pos : Nat) : resetStart s pos = if (pos - r) * 1000000 > 4000 * rate then some r else none := by
  simp only [resetStart, hrate, hrising, isReset_iff, samplesSince]

/-- With no rising edge yet, no FALL completes a reset pulse (R123). -/
theorem resetStart_of_no_rising {s : State} (hrising : s.lastRising = none) (pos : Nat) : resetStart s pos = none := by
  cases hrate : s.rate <;> simp only [resetStart, hrate, hrising]

/-- Taking an edge from the port leaves the rate and the rising edge, so the reset test too. -/
@[simp] theorem resetStart_noteEdge_consume (s : State) (p pos : Nat) :
    resetStart (s.consume.noteEdge p) pos = resetStart s pos := rfl

/-! ## Edges the block can take in FindReset -/

/-- RISE in FindReset is the last rising edge (R120). -/
theorem exec_riseFr_of_edgeReady {s : State} {pos : Nat} (hs : EdgeReady s pos) :
    exec (.riseFr pos) s = .next ((s.consume.noteEdge pos).noteRising pos) := by
  rw [exec, execRiseFr, acceptEdge_of_edgeReady (.inl rfl) hs]

/-- A FALL that completes a reset pulse begins a frame (R124). -/
theorem exec_fallFr_of_reset {s : State} {pos r : Nat} (hs : EdgeReady s pos) (hreset : resetStart s pos = some r) :
    exec (.fallFr pos) s = .next ((s.consume.noteEdge pos).beginFrame r pos) := by
  rw [exec, execFallFr, acceptEdge_of_edgeReady (.inr rfl) hs]
  simp only [resetStart_noteEdge_consume, hreset]

/-- A FALL that completes no reset pulse is the last falling edge, and no more (R125). -/
theorem exec_fallFr_of_no_reset {s : State} {pos : Nat} (hs : EdgeReady s pos) (hreset : resetStart s pos = none) :
    exec (.fallFr pos) s = .next ((s.consume.noteEdge pos).noteFalling pos) := by
  rw [exec, execFallFr, acceptEdge_of_edgeReady (.inr rfl) hs]
  simp only [resetStart_noteEdge_consume, hreset]

/-- Settles O15: the whole next state of RISE in FindReset, field by field. -/
theorem riseInFindResetRecordsEdge : Obligations.RiseInFindResetRecordsEdge :=
  fun _ _ hs => exec_riseFr_of_edgeReady hs

/-- Settles O16: the reset test answers the rising edge over the threshold, and nothing at the threshold, below it or
with no rising edge. -/
theorem fallInFindResetTestsHighPhase : Obligations.FallInFindResetTestsHighPhase := by
  intro s pos rate hs hrate
  refine ⟨fun r hrising hlong => ?_, fun r hrising hshort => ?_, fun hrising => ?_⟩
  · have hreset : resetStart s pos = some r := by rw [resetStart_of_rising hrate hrising, if_pos hlong]
    exact exec_fallFr_of_reset hs hreset
  · have hreset : resetStart s pos = none := by rw [resetStart_of_rising hrate hrising, if_neg hshort]
    exact exec_fallFr_of_no_reset hs hreset
  · exact exec_fallFr_of_no_reset hs (resetStart_of_no_rising hrising pos)

end Sys2Proof.Machine
end

section
/-! The ReadingBits family: which bit an interval delivers (R141, R142), what a FALL does with it (R143 to R148, R152),
and the RISE that is dropped (R151). First the bands, in samples and in microseconds. -/

namespace Sys2Proof.Machine

/-! ## The bands -/

/-- The classification answers a bit exactly in that bit's band (R141). -/
theorem classify_eq_some_iff (rate d : Nat) (v : Bool) : classify rate d = some v ↔ InBand rate d v := by
  cases v with
  | false => simp [classify_zero_iff, InBand]
  | true => simp [classify_one_iff, InBand]

/-- An interval is unclassified exactly outside both bands (R142). -/
theorem classify_eq_none_iff (rate d : Nat) :
    classify rate d = none ↔ ¬ InBand rate d false ∧ ¬ InBand rate d true := by
  simp only [Option.eq_none_iff_forall_ne_some, Bool.forall_bool, ne_eq, classify_eq_some_iff]

theorem durUs_eq_div (rate d : Nat) : durUs rate d = (d : Rat) * 1000000 / rate :=
  (mul_div_assoc ..).symm

/-- The duration is over `T` microseconds exactly where the whole numbers say so (R14). -/
theorem lt_durUs_iff {rate : Nat} (hrate : 1 ≤ rate) (d T : Nat) :
    (T : Rat) < durUs rate d ↔ T * rate < d * 1000000 := by
  have hpos : (0 : Rat) < rate := by exact_mod_cast hrate
  rw [durUs_eq_div, lt_div_iff₀ hpos]
  exact_mod_cast Iff.rfl

/-- The duration is under `T` microseconds exactly where the whole numbers say so (R14). -/
theorem durUs_lt_iff {rate : Nat} (hrate : 1 ≤ rate) (d T : Nat) :
    durUs rate d < (T : Rat) ↔ d * 1000000 < T * rate := by
  have hpos : (0 : Rat) < rate := by exact_mod_cast hrate
  rw [durUs_eq_div, div_lt_iff₀ hpos]
  exact_mod_cast Iff.rfl

/-- The band of bit 0 in microseconds (R8). -/
theorem inBand_false_iff_durUs {rate : Nat} (hrate : 1 ≤ rate) (d : Nat) :
    InBand rate d false ↔ 3000 < durUs rate d ∧ durUs rate d < 5000 :=
  and_congr (lt_durUs_iff hrate d 3000).symm (durUs_lt_iff hrate d 5000).symm

/-- The band of bit 1 in microseconds (R8). -/
theorem inBand_true_iff_durUs {rate : Nat} (hrate : 1 ≤ rate) (d : Nat) :
    InBand rate d true ↔ 6000 < durUs rate d ∧ durUs rate d < 8000 :=
  and_congr (lt_durUs_iff hrate d 6000).symm (durUs_lt_iff hrate d 8000).symm

/-- Outside both open bands a time is below the first, between the two, or above the second, the bounds included. -/
theorem outside_bands_iff (x : Rat) :
    ¬ (3000 < x ∧ x < 5000) ∧ ¬ (6000 < x ∧ x < 8000) ↔ x ≤ 3000 ∨ (5000 ≤ x ∧ x ≤ 6000) ∨ 8000 ≤ x := by
  simp only [not_and_or, not_lt]
  constructor
  · rintro ⟨hlow | hlow, hhigh | hhigh⟩
    · exact .inl hlow
    · exact .inl hlow
    · exact .inr (.inl ⟨hlow, hhigh⟩)
    · exact .inr (.inr hhigh)
  · rintro (hbelow | ⟨hlow, hhigh⟩ | habove)
    · exact ⟨.inl hbelow, .inl (by linarith)⟩
    · exact ⟨.inr hlow, .inl hhigh⟩
    · exact ⟨.inr (by linarith), .inr habove⟩

/-- Settles O32: each bit is its band, and what is left is the complement of both. -/
theorem bandsClassifyInMicroseconds : Obligations.BandsClassifyInMicroseconds := by
  intro rate d hrate
  refine ⟨?_, ?_, ?_⟩
  · rw [classify_eq_some_iff, inBand_false_iff_durUs hrate]
  · rw [classify_eq_some_iff, inBand_true_iff_durUs hrate]
  · rw [classify_eq_none_iff, inBand_false_iff_durUs hrate, inBand_true_iff_durUs hrate, outside_bands_iff]

/-! ## The bit that a FALL delivers -/

/-- After a falling edge at `f`, a FALL delivers the bit of the interval between them (R140, R141). -/
theorem bitAt_of_falling {s : State} {rate f : Nat} (hrate : s.rate = some rate) (hfalling : s.lastFalling = some f)
    (pos : Nat) : bitAt s pos = (classify rate (pos - f)).map fun v => (f, v) := by
  simp only [bitAt, hrate, hfalling, samplesSince]

theorem bitAt_of_inBand {s : State} {rate f pos : Nat} {v : Bool} (hrate : s.rate = some rate)
    (hfalling : s.lastFalling = some f) (hband : InBand rate (pos - f) v) : bitAt s pos = some (f, v) := by
  rw [bitAt_of_falling hrate hfalling, (classify_eq_some_iff ..).mpr hband, Option.map_some]

theorem bitAt_of_unclassified {s : State} {rate f pos : Nat} (hrate : s.rate = some rate)
    (hfalling : s.lastFalling = some f) (hzero : ¬ InBand rate (pos - f) false) (hone : ¬ InBand rate (pos - f) true) :
    bitAt s pos = none := by
  rw [bitAt_of_falling hrate hfalling, (classify_eq_none_iff ..).mpr ⟨hzero, hone⟩, Option.map_none]

/-- Taking an edge from the port leaves the rate and the falling edge, so the bit delivered too. -/
@[simp] theorem bitAt_noteEdge_consume (s : State) (p pos : Nat) :
    bitAt (s.consume.noteEdge p) pos = bitAt s pos := rfl

/-! ## Edges the block can take in ReadingBits -/

/-- A FALL that delivers a bit appends it and moves `lastFalling`; then the test for a complete word (R145). -/
theorem exec_fallRb_of_bit {s : State} {pos f : Nat} {v : Bool} (hs : EdgeReady s pos)
    (hbit : bitAt s pos = some (f, v)) :
    exec (.fallRb pos) s =
      .next ((((s.consume.noteEdge pos).appendBit f pos v).noteFalling pos).finishIfComplete pos) := by
  rw [exec, execFallRb, acceptEdge_of_edgeReady (.inr rfl) hs]
  simp only [bitAt_noteEdge_consume, hbit]

/-- A FALL that delivers no bit only moves `lastFalling`, before the same test (R143, R152). -/
theorem exec_fallRb_of_no_bit {s : State} {pos : Nat} (hs : EdgeReady s pos) (hbit : bitAt s pos = none) :
    exec (.fallRb pos) s = .next (((s.consume.noteEdge pos).noteFalling pos).finishIfComplete pos) := by
  rw [exec, execFallRb, acceptEdge_of_edgeReady (.inr rfl) hs]
  simp only [bitAt_noteEdge_consume, hbit]

/-- What a completed word writes: its two annotations and the decoder state (R148). -/
theorem State.completeWord_eq (s : State) (pos : Nat) :
    s.completeWord pos = { s with
      out := s.out ++ [⟨s.wordStart, pos, .word, hex4 s.content⟩, ⟨s.commandStart, pos, .command, cmdRead s.content⟩]
      state := .findReset } := by
  simp [State.completeWord, State.emit]

/-- Settles O22: the bit makes the count 16, so the word completes, over the content with the bit appended. -/
theorem sixteenthBitCompletesWord : Obligations.SixteenthBitCompletesWord := by
  intro s pos f rate v hs hrate hfalling hband hfifteen
  have hsixteen : (((s.consume.noteEdge pos).appendBit f pos v).noteFalling pos).bitCount = 16 := by simp [hfifteen]
  rw [exec_fallRb_of_bit hs (bitAt_of_inBand hrate hfalling hband), State.finish_of_sixteen _ _ hsixteen]
  simp [State.completeWord_eq, bitText, cmdRead, hfifteen]

/-- Settles O21: short of 16 bits finishing changes nothing; on the 16th bit the completed word's state shows the
append. -/
theorem classifiedBitIsAppended : Obligations.ClassifiedBitIsAppended := by
  intro s pos f rate v hs hrate hfalling hband
  constructor
  · intro hshort
    have hne : (((s.consume.noteEdge pos).appendBit f pos v).noteFalling pos).bitCount ≠ 16 := by
      simpa using hshort.ne
    rw [exec_fallRb_of_bit hs (bitAt_of_inBand hrate hfalling hband), State.finish_of_ne_sixteen _ _ hne]
    rfl
  · intro hfifteen
    refine ⟨_, sixteenthBitCompletesWord s pos f rate v hs hrate hfalling hband hfifteen, rfl, rfl, ?_⟩
    exact (List.prefix_append_right_inj s.out).mpr (List.prefix_append [_] [_, _])

/-- Settles O23: no bit is delivered, and with at most 15 bits read no word completes. -/
theorem unclassifiedIntervalIsIgnored : Obligations.UnclassifiedIntervalIsIgnored := by
  intro s pos f rate hs hrate hfalling hzero hone hcount
  have hne : ((s.consume.noteEdge pos).noteFalling pos).bitCount ≠ 16 := by
    simpa using (Nat.lt_succ_of_le hcount).ne
  rw [exec_fallRb_of_no_bit hs (bitAt_of_unclassified hrate hfalling hzero hone), State.finish_of_ne_sixteen _ _ hne]
  rfl

/-- Settles O20: the whole next state of RISE in ReadingBits, field by field. -/
theorem riseInReadingBitsIsDropped : Obligations.RiseInReadingBitsIsDropped :=
  fun _ _ hs => exec_riseRb_of_edgeReady hs

/-! ## Every FALL moves `lastFalling` -/

/-- In ReadingBits, whether or not a bit is delivered (R152). -/
theorem exec_fallRb_moves_lastFalling {s : State} {pos : Nat} (hs : EdgeReady s pos) :
    ∃ t, exec (.fallRb pos) s = .next t ∧ t.lastFalling = some pos := by
  cases hbit : bitAt s pos with
  | some fv => exact ⟨_, exec_fallRb_of_bit hs hbit, by simp⟩
  | none => exact ⟨_, exec_fallRb_of_no_bit hs hbit, by simp⟩

/-- In FindReset, whether or not a reset pulse ends (R122). -/
theorem exec_fallFr_moves_lastFalling {s : State} {pos : Nat} (hs : EdgeReady s pos) :
    ∃ t, exec (.fallFr pos) s = .next t ∧ t.lastFalling = some pos := by
  cases hreset : resetStart s pos with
  | some r => exact ⟨_, exec_fallFr_of_reset hs hreset, rfl⟩
  | none => exact ⟨_, exec_fallFr_of_no_reset hs hreset, rfl⟩

/-- Settles O29: the two FALL rows, each in both cases of its test. -/
theorem everyFallMovesLastFalling : Obligations.EveryFallMovesLastFalling := by
  intro s pos hs i hi
  obtain rfl | rfl : i = .fallRb pos ∨ i = .fallFr pos := by simpa using hi
  · exact exec_fallRb_moves_lastFalling hs
  · exact exec_fallFr_moves_lastFalling hs

end Sys2Proof.Machine
end

section
/-! The exceptions family: phase FAULT and a marked refusal admit no step, and the block reset leaves both (R95, R188).
First that phase FAULT admits no event, read off the acceptance table. -/

namespace Sys2Proof.Machine

/-- Phase FAULT neither refuses nor accepts an event (R188). -/
theorem phase_ne_fault_of_accept_next {k : EventKind} {s s' : State} {body : State → Result}
    (h : accept k s body = .next s') : s.phase ≠ .fault := by
  intro hfault
  have hstuck : acceptance s.phase k = .stuck := by rw [hfault, acceptance_fault]
  obtain ⟨-, ⟨c, hrefused, -⟩ | ⟨haccepted, -⟩⟩ := accept_next h
  · exact absurd (hstuck.symm.trans hrefused) (by simp)
  · exact absurd (hstuck.symm.trans haccepted) (by simp)

theorem phase_ne_fault_of_exec_next {i : Instr} {s s' : State} (h : exec i s = .next s') : s.phase ≠ .fault := by
  obtain ⟨body, hadmitted, -⟩ := exec_is_admitted i s
  exact phase_ne_fault_of_accept_next (hadmitted.symm.trans h)

/-- A state with a step is outside FAULT and has no refusal marked (R95). -/
theorem live_of_step_next {s s' : State} (h : step s = .next s') : s.phase ≠ .fault ∧ s.refused = none := by
  obtain ⟨ev, rest, hinput, hclear, -⟩ := step_next h
  exact ⟨phase_ne_fault_of_exec_next ((step_of_input hinput).symm.trans h), hclear⟩

/-- Settles O46: a state with a step is neither in FAULT nor refused, and a block reset is a fresh session over the
events that wait. -/
theorem faultAndRefusalAreFinal : Obligations.FaultAndRefusalAreFinal := by
  intro s hstopped
  constructor
  · intro s' hstep
    obtain ⟨hphase, hclear⟩ := live_of_step_next hstep
    exact hstopped.elim hphase fun hmarked => hmarked hclear
  · rw [s.blockReset_eq_sessionOf]
    exact ⟨rfl, rfl, rfl⟩

end Sys2Proof.Machine
end

section
/-! Decoding and encoding agree in both directions (R80 to R83), and with it what the event of a step says of the
instruction that runs. -/

namespace Sys2Proof

/-! ## Decoding what the encoder wrote -/

/-- The encoder writes a code of the instruction's kind (R81). -/
theorem kindOf_encode (i : Instr) (h : WellFormed i) : kindOf (encode i).kind = kindOfInstr i := by
  cases i with
  | riseFr pos => exact Laws.KindOfEncode.riseFr pos h
  | fallFr pos => exact Laws.KindOfEncode.fallFr pos h
  | riseRb pos => exact Laws.KindOfEncode.riseRb pos h
  | fallRb pos => exact Laws.KindOfEncode.fallRb pos h
  | eos => exact Laws.KindOfEncode.eos h
  | setRate rate => exact Laws.KindOfEncode.setRate rate h
  | start => exact Laws.KindOfEncode.start h
  | reserved code => exact Laws.KindOfEncode.reserved code h

/-- Settles O7: the written code has the instruction's kind, which with the context picks its row of the key table. -/
theorem decodeEncodeRoundTrip : Obligations.DecodeEncodeRoundTrip := by
  intro i S hwf hctx
  have hkind := kindOf_encode i hwf
  cases i with
  | riseFr pos | fallFr pos =>
    obtain rfl : S = .findReset := by simpa [inContext] using hctx
    rw [decode_by_kind, hkind]
    rfl
  | riseRb pos | fallRb pos =>
    obtain rfl : S = .readingBits := by simpa [inContext] using hctx
    rw [decode_by_kind, hkind]
    rfl
  | eos | setRate rate | start =>
    rw [decode_by_kind, hkind]
    cases S <;> rfl
  | reserved code => exact decode_of_reserved hkind S

/-! ## Encoding what the decoder read -/

/-- Every kind but the reserved one has one code (R81). -/
theorem code_eq_of_kindOf_eq {c d : KindCode} (hd : kindOf d ≠ .reserved) (h : kindOf c = kindOf d) : c = d := by
  revert c d
  decide

/-- What is decoded as reserved has a reserved code (R82); the other rows are well formed as they are. -/
theorem wellFormed_decode (S : DecoderState) (ev : Event) : WellFormed (decode S ev) := by
  rw [decode_by_kind]
  cases hkind : kindOf ev.kind with
  | reserved => cases S <;> exact (kindOf_reserved_iff ev.kind).mp hkind
  | rise | fall | eos | setRate | start => cases S <;> trivial

/-- The decoder answers an edge row only in that row's decoder state (R83). -/
theorem inContext_decode (S : DecoderState) (ev : Event) : inContext (decode S ev) S = true := by
  rw [decode_by_kind]
  cases S <;> cases kindOf ev.kind <;> rfl

/-- The encoder writes back the kind code that was decoded, a reserved one included. -/
theorem kind_encode_decode (S : DecoderState) (ev : Event) : (encode (decode S ev)).kind = ev.kind := by
  by_cases hreserved : kindOf ev.kind = .reserved
  · rw [decode_of_reserved hreserved, encode]
  · refine code_eq_of_kindOf_eq hreserved ?_
    rw [kindOf_encode _ (wellFormed_decode S ev), kindOf_decode]

@[simp] theorem Event.normal_kind (ev : Event) : ev.normal.kind = ev.kind := by
  unfold Event.normal
  cases kindOf ev.kind <;> rfl

/-- The operands that the encoder writes back are those the kind has; the others are 0 (R80). -/
theorem encode_decode (S : DecoderState) (ev : Event) : encode (decode S ev) = ev.normal := by
  have hkind : (encode (decode S ev)).kind = ev.normal.kind := by rw [kind_encode_decode, Event.normal_kind]
  have hpos : (encode (decode S ev)).pos = ev.normal.pos := by
    rw [decode_by_kind, Event.normal]
    cases S <;> cases kindOf ev.kind <;> rfl
  have hrate : (encode (decode S ev)).rate = ev.normal.rate := by
    rw [decode_by_kind, Event.normal]
    cases S <;> cases kindOf ev.kind <;> rfl
  have hfields : Event.mk _ _ _ = Event.mk _ _ _ := congr (congr (congrArg Event.mk hkind) hpos) hrate
  exact hfields

/-- Settles O8: the decoder's answer is well formed, stands in its context, and is written back as the event read. -/
theorem encodeDecodeGivesNormalForm : Obligations.EncodeDecodeGivesNormalForm :=
  fun S ev => ⟨wellFormed_decode S ev, inContext_decode S ev, encode_decode S ev⟩

/-- An edge keeps its position in its normal form (R80). -/
theorem Event.normal_pos_of_edge {ev : Event} (h : kindOf ev.kind = .rise ∨ kindOf ev.kind = .fall) :
    ev.normal.pos = ev.pos := by
  rcases h with h | h <;> simp [Event.normal, h]

end Sys2Proof

namespace Sys2Proof.Machine

/-- What a step that answers a next state ran: the event `ev` at the port, as the instruction `i`, with the effect of
`i` on the state (R95). -/
structure Ran (s : State) (ev : Event) (i : Instr) (s' : State) : Prop where
  input : ∃ rest, s.input = ev :: rest
  clear : s.refused = none
  context : inContext i s.state = true
  kind : kindOf ev.kind = kindOfInstr i
  pos : kindOfInstr i = .rise ∨ kindOfInstr i = .fall → ev.pos = (encode i).pos
  effect : Effect s i s'

theorem step_ran {s s' : State} (h : step s = .next s') : ∃ ev i, Ran s ev i s' := by
  obtain ⟨ev, rest, hinput, hclear, heffect⟩ := step_next h
  have hkind : kindOf ev.kind = kindOfInstr (decode s.state ev) := (kindOf_decode s.state ev).symm
  exact ⟨ev, decode s.state ev,
    { input := ⟨rest, hinput⟩
      clear := hclear
      context := inContext_decode s.state ev
      kind := hkind
      pos := fun hedge => by rw [encode_decode, Event.normal_pos_of_edge (hkind ▸ hedge)]
      effect := heffect }⟩

theorem Ran.findReset_of_riseFr {s s' : State} {ev : Event} {pos : Nat} (h : Ran s ev (.riseFr pos) s') :
    s.state = .findReset := by
  simpa [inContext] using h.context

theorem Ran.findReset_of_fallFr {s s' : State} {ev : Event} {pos : Nat} (h : Ran s ev (.fallFr pos) s') :
    s.state = .findReset := by
  simpa [inContext] using h.context

theorem Ran.readingBits_of_fallRb {s s' : State} {ev : Event} {pos : Nat} (h : Ran s ev (.fallRb pos) s') :
    s.state = .readingBits := by
  simpa [inContext] using h.context

end Sys2Proof.Machine
end

section
/-! The invariants of R49 hold after a block reset and are kept by every step and by the host's actions. One lemma per
operation on the state; an effect is a composition of operations. -/

namespace Sys2Proof.Machine

/-! ## After a block reset, and the host's actions -/

theorem inv_sessionOf (events : List Event) : Inv (sessionOf events) := by
  constructor <;> simp [sessionOf, State.reset]

theorem accumulatorMatchesOutput_sessionOf (events : List Event) : AccumulatorMatchesOutput (sessionOf events) :=
  ⟨rfl, rfl⟩

/-- Settles O49: each invariant at the reset values. -/
theorem resetIsSound : Obligations.ResetIsSound :=
  fun events => ⟨inv_sessionOf events, accumulatorMatchesOutput_sessionOf events⟩

/-- The invariants do not speak of the port. -/
theorem Inv.deliver {s : State} (h : Inv s) (ev : Event) : Inv (s.deliver ev) := { h with }

theorem Inv.consume {s : State} (h : Inv s) : Inv s.consume := { h with }

/-- Settles O51: a block reset is a fresh session, and delivery touches only the port. -/
theorem hostActionsKeepSoundness : Obligations.HostActionsKeepSoundness :=
  fun s ev => ⟨s.blockReset_eq_sessionOf ▸ inv_sessionOf s.input, fun h => h.deliver ev⟩

/-! ## Refusals and the lifecycle -/

theorem Inv.markRefused {s : State} (h : Inv s) (c : RefusalCause) : Inv (s.markRefused c) := { h with }

theorem Inv.putRate {s : State} (h : Inv s) {rate : Nat} (hrate : 1 ≤ rate) : Inv (s.putRate rate) :=
  { h with
    rate_pos := by simpa using hrate
    run_has_rate := by simp }

/-- Entering FAULT writes phase and cause together (R181). -/
theorem Inv.raiseFault {s : State} (h : Inv s) (c : FaultCause) : Inv (s.raiseFault c) :=
  { h with
    run_has_rate := by simp
    fault_iff := by simp
    idle_clean := by simp }

/-- Outside FAULT the phase moves freely to RUN, given a rate, and to DONE (R112, R170). -/
theorem Inv.toPhase {s : State} (h : Inv s) {p : Phase} (hlive : s.phase ≠ .fault) (hrate : s.rate ≠ none)
    (hp : p = .run ∨ p = .done) : Inv (s.toPhase p) := by
  have hnofault : s.fault = none := by simpa [hlive] using h.fault_iff
  exact { h with
    run_has_rate := fun _ => hrate
    fault_iff := by rcases hp with rfl | rfl <;> simp [hnofault]
    idle_clean := by rcases hp with rfl | rfl <;> simp }

/-! ## Edges -/

/-- An edge in order is at or after every earlier edge, those that the decoder remembers included. -/
theorem Inv.noteEdge {s : State} (h : Inv s) {pos : Nat} (hrun : s.phase = .run)
    (horder : ∀ p, s.lastPos = some p → p < pos) : Inv (s.noteEdge pos) :=
  { h with
    idle_clean := by simp [hrun]
    rising_le := fun r hr => by
      obtain ⟨p, hp, hle⟩ := h.rising_le r hr
      exact ⟨pos, rfl, hle.trans (horder p hp).le⟩
    falling_le := fun f hf => by
      obtain ⟨p, hp, hle⟩ := h.falling_le f hf
      exact ⟨pos, rfl, hle.trans (horder p hp).le⟩ }

theorem Inv.noteRising {s : State} (h : Inv s) {pos : Nat} (hlast : s.lastPos = some pos) : Inv (s.noteRising pos) :=
  { h with
    rising_le := by simp [hlast] }

/-- A falling edge at the last position is not before the frame that is being read. -/
theorem Inv.noteFalling {s : State} (h : Inv s) {pos : Nat} (hlast : s.lastPos = some pos) :
    Inv (s.noteFalling pos) :=
  { h with
    falling_le := by simp [hlast]
    reading := fun hreading => by
      obtain ⟨hcount, hframe, f, hf, hword⟩ := h.reading hreading
      obtain ⟨p, hp, hle⟩ := h.falling_le f hf
      obtain rfl : p = pos := by simpa [hlast] using hp.symm
      exact ⟨hcount, hframe, p, rfl, hword.trans hle⟩ }

/-! ## Output and the accumulator -/

theorem Inv.emit {s : State} (h : Inv s) (hlive : s.phase ≠ .idle) {a : Annotation} (ha : a.startSample < a.endSample) :
    Inv (s.emit a) :=
  { h with
    idle_clean := fun hidle => absurd hidle hlive
    spans := fun b hb => by
      rcases List.mem_append.mp hb with hb | hb
      · exact h.spans b hb
      · rw [List.mem_singleton.mp hb]; exact ha }

/-- A detected reset begins a frame: no bit yet, and the rising edge before the falling one (R124). -/
theorem Inv.beginFrame {s : State} (h : Inv s) {r pos : Nat} (hlive : s.phase ≠ .idle) (hlast : s.lastPos = some pos)
    (hlt : r < pos) : Inv (s.beginFrame r pos) :=
  { h.emit hlive (a := ⟨r, pos, .bit, resetText⟩) hlt with
    idle_clean := fun hidle => absurd hidle hlive
    count_le := by simp
    content_lt := by simp
    reading := by simp [hlt]
    falling_le := by simp [hlast] }

/-- A state with no frame being read: what a completed word returns to (R148). -/
def State.leaveFrame (s : State) : State := { s with state := .findReset }

theorem Inv.leaveFrame {s : State} (h : Inv s) : Inv s.leaveFrame :=
  { h with
    idle_clean := fun hidle => by
      obtain ⟨hlast, -, hout⟩ := h.idle_clean hidle
      exact ⟨hlast, rfl, hout⟩
    reading := by simp [State.leaveFrame] }

/-- A bit fits if fewer than 16 are read, and if fewer than 15 are where reading goes on (R146). -/
theorem Inv.appendBit {s : State} (h : Inv s) {f pos : Nat} (hlive : s.phase ≠ .idle) (hlt : f < pos)
    (hcount : s.bitCount ≤ 15) (hshort : s.state = .readingBits → s.bitCount < 15) (v : Bool) :
    Inv (s.appendBit f pos v) :=
  { h.emit hlive (a := ⟨f, pos, .bit, bitText v⟩) hlt with
    count_le := Nat.succ_le_succ hcount
    content_lt := (accumulator_shift s.content s.bitCount v h.content_lt hcount).2
    reading := fun hreading => by
      obtain ⟨-, hframe⟩ := h.reading hreading
      exact ⟨hshort hreading, hframe⟩ }

/-- A word completes at an edge after both starts of its frame. -/
theorem Inv.completeWord {s : State} (h : Inv s) {pos : Nat} (hlive : s.phase ≠ .idle) (hword : s.wordStart < pos)
    (hcommand : s.commandStart < pos) : Inv (s.completeWord pos) :=
  ((h.emit hlive (a := ⟨s.wordStart, pos, .word, hex4 s.content⟩) hword).emit hlive
    (a := ⟨s.commandStart, pos, .command, cmdRead s.content⟩) hcommand).leaveFrame

/-- While a frame is read, both its starts lie before every edge after the last falling one. -/
theorem Inv.frame_before {s : State} (h : Inv s) {f pos : Nat} (hreading : s.state = .readingBits)
    (hfalling : s.lastFalling = some f) (hlt : f < pos) : s.wordStart < pos ∧ s.commandStart < pos := by
  obtain ⟨-, hframe, p, hp, hword⟩ := h.reading hreading
  obtain rfl : f = p := Option.some.inj (hfalling.symm.trans hp)
  have hbefore : s.wordStart < pos := hword.trans_lt hlt
  exact ⟨hbefore, hframe.trans hbefore⟩

/-- A classified bit: short of 16 bits reading goes on; on the 16th the word completes, over the state that has left the
frame. -/
theorem Inv.bitRead {s : State} (h : Inv s) {f pos : Nat} (hlive : s.phase ≠ .idle) (hreading : s.state = .readingBits)
    (hlast : s.lastPos = some pos) (hfalling : s.lastFalling = some f) (hlt : f < pos) (v : Bool) :
    Inv (((s.appendBit f pos v).noteFalling pos).finishIfComplete pos) := by
  obtain ⟨hcount, -⟩ := h.reading hreading
  by_cases hfull : ((s.appendBit f pos v).noteFalling pos).bitCount = 16
  · have hbit : Inv (s.leaveFrame.appendBit f pos v) :=
      h.leaveFrame.appendBit hlive hlt hcount (by simp [State.leaveFrame]) v
    obtain ⟨hword, hcommand⟩ := h.frame_before hreading hfalling hlt
    rw [State.finish_of_sixteen _ _ hfull]
    exact (hbit.noteFalling hlast).completeWord hlive hword hcommand
  · have hshort : s.bitCount < 15 := by
      have hne : s.bitCount + 1 ≠ 16 := by simpa using hfull
      omega
    rw [State.finish_of_ne_sixteen _ _ hfull]
    exact (h.appendBit hlive hlt hcount (fun _ => hshort) v).noteFalling hlast

/-! ## Every step -/

/-- While a frame is read, a FALL without a bit finds no complete word (R147). -/
theorem finishIfComplete_of_reading {s : State} (h : Inv s) (hreading : s.state = .readingBits) (pos : Nat) :
    s.finishIfComplete pos = s := by
  obtain ⟨hcount, -⟩ := h.reading hreading
  exact State.finish_of_ne_sixteen s pos (by omega)

theorem Ran.keeps_inv {s s' : State} {ev : Event} {i : Instr} (h : Ran s ev i s') (hinv : Inv s) : Inv s' := by
  have hedge {pos : Nat} (hrun : s.phase = .run) (horder : ∀ p, s.lastPos = some p → p < pos) :
      Inv (s.consume.noteEdge pos) := hinv.consume.noteEdge hrun horder
  have hlive (hrun : s.phase = .run) : s.phase ≠ .idle := by simp [hrun]
  cases h.effect with
  | refused _ c => exact hinv.markRefused c
  | riseFr pos hrun horder => exact (hedge hrun horder).noteRising rfl
  | resetFound pos r hrun horder hreset =>
    obtain ⟨hrising, -⟩ := resetStart_eq_some hreset
    obtain ⟨p, hp, hle⟩ := hinv.rising_le r hrising
    exact (hedge hrun horder).beginFrame (hlive hrun) rfl (hle.trans_lt (horder p hp))
  | noReset pos hrun horder => exact (hedge hrun horder).noteFalling rfl
  | riseRb pos hrun horder => exact hedge hrun horder
  | bitRead pos f v hrun horder hbit =>
    obtain ⟨hfalling, -⟩ := bitAt_eq_some hbit
    obtain ⟨p, hp, hle⟩ := hinv.falling_le f hfalling
    exact (hedge hrun horder).bitRead (hlive hrun) h.readingBits_of_fallRb rfl hfalling (hle.trans_lt (horder p hp)) v
  | noBit pos hrun horder =>
    have hfall : Inv ((s.consume.noteEdge pos).noteFalling pos) := (hedge hrun horder).noteFalling rfl
    rwa [finishIfComplete_of_reading hfall h.readingBits_of_fallRb]
  | eos hrun => exact hinv.consume.toPhase (by simp [hrun]) (hinv.run_has_rate hrun) (.inr rfl)
  | setRate rate _ hrate => exact hinv.consume.putRate hrate
  | startNoRate => exact hinv.consume.raiseFault _
  | start rate hidle hrate => exact hinv.consume.toPhase (by simp [hidle]) (by simp [hrate]) (.inl rfl)

theorem step_keeps_inv {s s' : State} (hinv : Inv s) (h : step s = .next s') : Inv s' := by
  obtain ⟨ev, i, hran⟩ := step_ran h
  exact hran.keeps_inv hinv

/-- Settles O50: the effect of whatever instruction ran keeps the invariants. -/
theorem stepKeepsSoundness : Obligations.StepKeepsSoundness := fun _ _ => step_keeps_inv

end Sys2Proof.Machine
end

section
/-! What the output says of the accumulator: the bits since the last RESET are the accumulator (R40, R41, R67), and
every Word and Command shows 16 of them (R149). First how one more record changes the bits that are read off the output. -/

namespace Sys2Proof.Machine

/-! ## Bits read off the output -/

@[simp] theorem frameBits_concat (out : List Annotation) (a : Annotation) :
    frameBits (out ++ [a]) = noteRecord (frameBits out) a := by
  simp [frameBits, List.foldl_append]

/-- The next bit becomes the least significant one (R67). -/
@[simp] theorem wordOfBits_concat (bits : List Bool) (v : Bool) :
    wordOfBits (bits ++ [v]) = wordOfBits bits * 2 + (if v then 1 else 0) := by
  simp [wordOfBits, List.foldl_append]

/-- A RESET record begins a frame with no bits. -/
theorem noteRecord_reset (bits : List Bool) (r pos : Nat) : noteRecord bits ⟨r, pos, .bit, resetText⟩ = [] := rfl

/-- A bit's record joins that bit to the frame. -/
theorem noteRecord_bit (bits : List Bool) (f pos : Nat) (v : Bool) :
    noteRecord bits ⟨f, pos, .bit, bitText v⟩ = bits ++ [v] := by
  cases v <;> rfl

/-- Word and Command records leave the bits of the frame. -/
theorem noteRecord_of_level_ne_bit (bits : List Bool) {a : Annotation} (h : a.level ≠ .bit) :
    noteRecord bits a = bits := by
  cases hlevel : a.level with
  | bit => exact absurd hlevel h
  | word | command => simp only [noteRecord, hlevel]

theorem frameBits_completeWord (s : State) (pos : Nat) : frameBits (s.completeWord pos).out = frameBits s.out := by
  simp only [State.completeWord_out, frameBits, List.foldl_append, List.foldl]
  rw [noteRecord_of_level_ne_bit _ (by simp), noteRecord_of_level_ne_bit _ (by simp)]

/-! ## The accumulator -/

/-- A new frame has no bits, in the output and in the accumulator (R124). -/
theorem accumulatorMatchesOutput_beginFrame (s : State) (r pos : Nat) :
    AccumulatorMatchesOutput (s.beginFrame r pos) := by
  simp [AccumulatorMatchesOutput, noteRecord_reset, wordOfBits]

/-- A classified bit joins both, where the shift loses nothing (R144, R146). -/
theorem AccumulatorMatchesOutput.appendBit {s : State} (h : AccumulatorMatchesOutput s)
    (hcontent : s.content.toNat < 2 ^ s.bitCount) (hcount : s.bitCount ≤ 15) (f pos : Nat) (v : Bool) :
    AccumulatorMatchesOutput (s.appendBit f pos v) := by
  obtain ⟨hlength, hword⟩ := h
  obtain ⟨hexact, -⟩ := accumulator_shift s.content s.bitCount v hcontent hcount
  constructor
  · simp [noteRecord_bit, hlength]
  · rw [State.appendBit_out, frameBits_concat, noteRecord_bit, wordOfBits_concat, hword, State.appendBit_content,
      hexact]

/-- Finishing a word writes neither the accumulator nor a bit (R148). -/
theorem AccumulatorMatchesOutput.finishIfComplete {s : State} (h : AccumulatorMatchesOutput s) (pos : Nat) :
    AccumulatorMatchesOutput (s.finishIfComplete pos) := by
  by_cases hfull : s.bitCount = 16
  · rw [State.finish_of_sixteen s pos hfull, AccumulatorMatchesOutput, frameBits_completeWord]
    exact h
  · rwa [State.finish_of_ne_sixteen s pos hfull]

/-- A classified bit before the test for a complete word, in a sound state that reads a frame. -/
theorem AccumulatorMatchesOutput.bitRead {s : State} (h : AccumulatorMatchesOutput s) (hinv : Inv s)
    (hreading : s.state = .readingBits) (p f pos : Nat) (v : Bool) :
    AccumulatorMatchesOutput (((s.consume.noteEdge p).appendBit f pos v).noteFalling pos) := by
  obtain ⟨hcount, -⟩ := hinv.reading hreading
  have hedge : AccumulatorMatchesOutput (s.consume.noteEdge p) := h
  exact hedge.appendBit hinv.content_lt hcount f pos v

theorem Ran.keeps_accumulatorMatch {s s' : State} {ev : Event} {i : Instr} (h : Ran s ev i s') (hinv : Inv s)
    (hmatch : AccumulatorMatchesOutput s) : AccumulatorMatchesOutput s' := by
  cases h.effect with
  | resetFound pos r => exact accumulatorMatchesOutput_beginFrame _ r pos
  | bitRead pos f v =>
    exact (hmatch.bitRead hinv h.readingBits_of_fallRb pos f pos v).finishIfComplete pos
  | noBit pos =>
    exact AccumulatorMatchesOutput.finishIfComplete (s := (s.consume.noteEdge pos).noteFalling pos) hmatch pos
  | refused | riseFr | noReset | riseRb | eos | setRate | startNoRate | start => exact hmatch

/-- Settles O52: the effect of whatever instruction ran keeps the match. -/
theorem stepKeepsAccumulatorMatch : Obligations.StepKeepsAccumulatorMatch := by
  intro s s' hinv hmatch h
  obtain ⟨ev, i, hran⟩ := step_ran h
  exact hran.keeps_accumulatorMatch hinv hmatch

/-! ## Whole words -/

/-- A record after the records `before` shows a whole word, if it is a Word or a Command (R149): the condition that
`WordsAreWhole` puts on every place of the output. -/
def ShowsWholeWord (before : List Annotation) (a : Annotation) : Prop :=
  (a.level = .word → (frameBits before).length = 16 ∧
    a.text = hex4 (BitVec.ofNat 16 (wordOfBits (frameBits before)))) ∧
  (a.level = .command → (frameBits before).length = 16 ∧
    a.text = cmdRead (BitVec.ofNat 16 (wordOfBits (frameBits before))))

theorem wordsAreWhole_iff (out : List Annotation) :
    WordsAreWhole out ↔ ∀ before a after, out = before ++ a :: after → ShowsWholeWord before a := Iff.rfl

theorem wordsAreWhole_nil : WordsAreWhole [] := by
  intro before a after h
  simp at h

/-- One more record keeps an output whole if that record shows a whole word. -/
theorem WordsAreWhole.concat {out : List Annotation} {x : Annotation} (h : WordsAreWhole out)
    (hx : ShowsWholeWord out x) : WordsAreWhole (out ++ [x]) := by
  rw [wordsAreWhole_iff] at h ⊢
  intro before a after hsplit
  rcases List.eq_nil_or_concat after with rfl | ⟨after', y, rfl⟩
  · obtain ⟨rfl, hxa⟩ := List.append_inj' hsplit rfl
    obtain rfl : x = a := by simpa using hxa
    exact hx
  · have hsplit' : out ++ [x] = (before ++ a :: after') ++ [y] := by simpa using hsplit
    exact h before a after' (List.append_inj_left' hsplit' rfl)

/-- A Bit record shows no word. -/
theorem showsWholeWord_of_bit (before : List Annotation) {a : Annotation} (h : a.level = .bit) :
    ShowsWholeWord before a := by
  simp [ShowsWholeWord, h]

/-- In a state whose accumulator matches the output, the two records of a full accumulator show the word of its bits
(R148). -/
theorem WordsAreWhole.completeWord {s : State} (h : WordsAreWhole s.out) (hmatch : AccumulatorMatchesOutput s)
    (hfull : s.bitCount = 16) (pos : Nat) : WordsAreWhole (s.completeWord pos).out := by
  obtain ⟨hlength, hword⟩ := hmatch
  have hsixteen : (frameBits s.out).length = 16 := hlength.trans hfull
  have hcontent : BitVec.ofNat 16 (wordOfBits (frameBits s.out)) = s.content := by
    rw [hword, BitVec.ofNat_toNat, BitVec.setWidth_eq]
  have hWord : WordsAreWhole (s.out ++ [⟨s.wordStart, pos, .word, hex4 s.content⟩]) :=
    h.concat ⟨fun _ => ⟨hsixteen, by rw [hcontent]⟩, by simp⟩
  have hCommand := hWord.concat (x := ⟨s.commandStart, pos, .command, cmdRead s.content⟩)
    ⟨by simp, fun _ => by
      rw [frameBits_concat, noteRecord_of_level_ne_bit _ (by simp), hcontent]
      exact ⟨hsixteen, rfl⟩⟩
  simpa using hCommand

theorem WordsAreWhole.finishIfComplete {s : State} (h : WordsAreWhole s.out) (hmatch : AccumulatorMatchesOutput s)
    (pos : Nat) : WordsAreWhole (s.finishIfComplete pos).out := by
  by_cases hfull : s.bitCount = 16
  · rw [State.finish_of_sixteen s pos hfull]
    exact h.completeWord hmatch hfull pos
  · rwa [State.finish_of_ne_sixteen s pos hfull]

theorem Ran.keeps_wordsAreWhole {s s' : State} {ev : Event} {i : Instr} (h : Ran s ev i s') (hinv : Inv s)
    (hmatch : AccumulatorMatchesOutput s) (hwhole : WordsAreWhole s.out) : WordsAreWhole s'.out := by
  cases h.effect with
  | resetFound => exact hwhole.concat (showsWholeWord_of_bit _ rfl)
  | bitRead pos f v =>
    have hbit : WordsAreWhole (((s.consume.noteEdge pos).appendBit f pos v).noteFalling pos).out :=
      hwhole.concat (showsWholeWord_of_bit _ rfl)
    exact hbit.finishIfComplete (hmatch.bitRead hinv h.readingBits_of_fallRb pos f pos v) pos
  | noBit pos =>
    exact WordsAreWhole.finishIfComplete (s := (s.consume.noteEdge pos).noteFalling pos) hwhole hmatch pos
  | refused | riseFr | noReset | riseRb | eos | setRate | startNoRate | start => exact hwhole

/-- Settles O53: the effect of whatever instruction ran keeps the output whole. -/
theorem stepKeepsWordsWhole : Obligations.StepKeepsWordsWhole := by
  intro s s' hinv hmatch hwhole h
  obtain ⟨ev, i, hran⟩ := step_ran h
  exact hran.keeps_wordsAreWhole hinv hmatch hwhole

/-! ## Every run -/

/-- What every state of a run satisfies: the invariants, and an output that is true to the accumulator and whole. -/
structure Sound (s : State) : Prop where
  inv : Inv s
  accumulator : AccumulatorMatchesOutput s
  words : WordsAreWhole s.out

theorem sound_sessionOf (events : List Event) : Sound (sessionOf events) :=
  ⟨inv_sessionOf events, accumulatorMatchesOutput_sessionOf events, wordsAreWhole_nil⟩

theorem step_keeps_sound (s s' : State) (hs : Sound s) (h : step s = .next s') : Sound s' :=
  ⟨step_keeps_inv hs.inv h, stepKeepsAccumulatorMatch s s' hs.inv hs.accumulator h,
    stepKeepsWordsWhole s s' hs.inv hs.accumulator hs.words h⟩

/-- Settles O54: a session is sound at reset and every step keeps it so. -/
theorem everyRunEmitsWholeWords : Obligations.EveryRunEmitsWholeWords := by
  intro events k s hrun
  have hs : Sound s := run_keeps step_keeps_sound k _ s (sound_sessionOf events) hrun
  exact ⟨hs.words, hs.inv.spans⟩

end Sys2Proof.Machine
end

section
/-! Which step writes which field: the only-writer laws. Each reads off the effects (`Effect`) the one that can change
the field, and off the event that ran (`Ran`) what that event was. -/

namespace Sys2Proof.Machine

/-! ## Events at the port -/

/-- An effect takes the event from the port or marks a refusal (R32, R185). -/
theorem Effect.consumes_or_refuses {s s' : State} {i : Instr} (h : Effect s i s') :
    (s'.refused = s.refused ∧ s'.input = s.input.tail ∧ s'.eventIndex = s.eventIndex + 1) ∨
      ∃ c, s' = s.markRefused c := by
  cases h with
  | refused _ c => exact .inr ⟨c, rfl⟩
  | bitRead | noBit => exact .inl ⟨by simp, by simp, by simp⟩
  | riseFr | resetFound | noReset | riseRb | eos | setRate | startNoRate | start => exact .inl ⟨rfl, rfl, rfl⟩

/-- Settles O4: a step runs with no refusal marked, so what is not a new mark leaves none. -/
theorem stepConsumesExactlyAcceptedEvents : Obligations.StepConsumesExactlyAcceptedEvents := by
  intro s s' h
  obtain ⟨ev, i, hran⟩ := step_ran h
  rcases hran.effect.consumes_or_refuses with ⟨hmark, hconsumed⟩ | hrefused
  · exact .inl ⟨hmark.trans hran.clear, hconsumed⟩
  · exact .inr ⟨hran.clear, hrefused⟩

/-- With a refusal marked there is no step (R95). -/
theorem exec_of_refused {s : State} {c : RefusalCause} (h : s.refused = some c) (i : Instr) :
    exec i s = .refused (.runRefused c) := by
  obtain ⟨body, hadmitted, -⟩ := exec_is_admitted i s
  rw [hadmitted, accept_of_refused h]

theorem step_of_refused {s : State} {c : RefusalCause} (h : s.refused = some c) :
    step s = .refused (.runRefused c) := by
  cases hinput : s.input with
  | nil => simp only [step, hinput, noEvent, h]
  | cons ev rest => rw [step_of_input hinput, exec_of_refused h]

/-- Settles O48: of the two ways to end a step, only the refusal leaves a mark. -/
theorem refusalWritesOnlyMark : Obligations.RefusalWritesOnlyMark := by
  intro s s' h hmarked
  obtain ⟨ev, i, hran⟩ := step_ran h
  rcases hran.effect.consumes_or_refuses with ⟨hmark, -⟩ | ⟨c, rfl⟩
  · exact absurd (hmark.trans hran.clear) hmarked
  · exact ⟨hran.clear, c, rfl, step_of_refused rfl⟩

/-! ## The lifecycle -/

/-- Settles O14: only SET_RATE writes the rate, and it runs only in IDLE. -/
theorem rateFixedOnceStarted : Obligations.RateFixedOnceStarted := by
  intro s s' h hstarted
  obtain ⟨ev, i, hran⟩ := step_ran h
  cases hran.effect with
  | setRate _ hidle => exact absurd hidle hstarted
  | bitRead | noBit => simp
  | refused | riseFr | resetFound | noReset | riseRb | eos | startNoRate | start => rfl

/-- Settles O41: EOS is the one effect that enters DONE; the others keep the phase, or leave IDLE for RUN or FAULT. -/
theorem onlyEosReachesDone : Obligations.OnlyEosReachesDone := by
  intro s s' h hdone hlive
  obtain ⟨ev, i, hran⟩ := step_ran h
  cases hran.effect with
  | eos hrun =>
    obtain ⟨rest, hinput⟩ := hran.input
    exact ⟨hrun, rfl, rfl, ev, rest, hinput, hran.kind⟩
  | bitRead | noBit => exact absurd (by simpa using hdone) hlive
  | refused | riseFr | resetFound | noReset | riseRb | setRate => exact absurd hdone hlive
  | startNoRate | start => simp at hdone

/-- Settles O47: START in IDLE with no rate is the one effect that writes the fault. -/
theorem faultOnlyFromStart : Obligations.FaultOnlyFromStart := by
  intro s s' h hfault
  obtain ⟨ev, i, hran⟩ := step_ran h
  cases hran.effect with
  | startNoRate hidle hnone =>
    obtain ⟨rest, hinput⟩ := hran.input
    exact ⟨hidle, hnone, ⟨ev, rest, hinput, hran.kind⟩, rfl⟩
  | bitRead | noBit => simp at hfault
  | refused | riseFr | resetFound | noReset | riseRb | eos | setRate | start => exact absurd rfl hfault

/-! ## The frame registers -/

/-- Settles O18: RISE in FindReset is the one effect that writes `lastRising`. -/
theorem lastRisingWrittenOnlyByRise : Obligations.LastRisingWrittenOnlyByRise := by
  intro s s' h hrising
  obtain ⟨ev, i, hran⟩ := step_ran h
  cases hran.effect with
  | riseFr pos =>
    obtain ⟨rest, hinput⟩ := hran.input
    have hpos : ev.pos = pos := hran.pos (.inl rfl)
    exact ⟨hran.findReset_of_riseFr, ev, rest, hinput, hran.kind, by rw [hpos, State.noteRising_lastRising]⟩
  | bitRead | noBit => simp at hrising
  | refused | resetFound | noReset | riseRb | eos | setRate | startNoRate | start => exact absurd rfl hrising

/-- Settles O19: a detected reset is the one effect that writes the starts of a frame. -/
theorem frameStartsWrittenOnlyByReset : Obligations.FrameStartsWrittenOnlyByReset := by
  intro s s' h hstarts
  obtain ⟨ev, i, hran⟩ := step_ran h
  cases hran.effect with
  | resetFound pos r _ _ hreset =>
    obtain ⟨rest, hinput⟩ := hran.input
    obtain ⟨hrising, -⟩ := resetStart_eq_some hreset
    exact ⟨hran.findReset_of_fallFr, rfl, ev, rest, hinput, hran.kind, hrising, (hran.pos (.inr rfl)).symm⟩
  | refused | riseFr | noReset | riseRb | bitRead | noBit | eos | setRate | startNoRate | start => simp at hstarts

/-! ## The accumulator -/

/-- Settles O30: a detected reset clears the accumulator, a classified bit shifts into it, and finishing a word leaves
it. -/
theorem accumulatorWrittenOnlyByResetOrBit : Obligations.AccumulatorWrittenOnlyByResetOrBit := by
  intro s s' h hwritten
  obtain ⟨ev, i, hran⟩ := step_ran h
  obtain ⟨rest, hinput⟩ := hran.input
  cases hran.effect with
  | resetFound =>
    exact ⟨⟨ev, rest, hinput, hran.kind⟩, .inl ⟨hran.findReset_of_fallFr, rfl, rfl, rfl⟩⟩
  | bitRead pos f v =>
    exact ⟨⟨ev, rest, hinput, hran.kind⟩, .inr ⟨hran.readingBits_of_fallRb, by simp, v, by simp⟩⟩
  | refused | riseFr | noReset | riseRb | noBit | eos | setRate | startNoRate | start => simp at hwritten

/-- Settles O25: only a classified bit changes the count, and while a frame is read its shift loses nothing. -/
theorem accumulatorUpdateIsExact : Obligations.AccumulatorUpdateIsExact := by
  intro s s' pos hinv hreading h hcount
  obtain ⟨-, heffect⟩ := exec_next h
  cases heffect with
  | bitRead _ f v =>
    obtain ⟨hle, -⟩ := hinv.reading hreading
    obtain ⟨hexact, hlt⟩ := accumulator_shift s.content s.bitCount v hinv.content_lt hle
    refine ⟨by simp, by simpa using hlt, ?_⟩
    cases v with
    | false => exact .inl (by simpa using hexact)
    | true => exact .inr (by simpa using hexact)
  | refused => exact absurd rfl hcount
  | noBit => simp at hcount

/-! ## Leaving ReadingBits -/

/-- Only a complete word leaves ReadingBits (R147). -/
theorem State.sixteen_of_finish_leaves {s : State} {pos : Nat} (hreading : s.state = .readingBits)
    (hleft : (s.finishIfComplete pos).state = .findReset) : s.bitCount = 16 := by
  by_contra hshort
  rw [State.finish_of_ne_sixteen s pos hshort, hreading] at hleft
  cases hleft

/-- Settles O26: a FALL in ReadingBits leaves it with 16 bits; at most 15 were read, so it delivered one. -/
theorem onlySixteenthBitLeavesReadingBits : Obligations.OnlySixteenthBitLeavesReadingBits := by
  intro s s' hinv h hreading hleft
  obtain ⟨ev, i, hran⟩ := step_ran h
  have hmoved : s'.state ≠ s.state := by simp [hleft, hreading]
  cases hran.effect with
  | bitRead pos f v _ _ hbit =>
    have hsixteen : s.bitCount + 1 = 16 :=
      State.sixteen_of_finish_leaves (s := ((s.consume.noteEdge pos).appendBit f pos v).noteFalling pos) hreading hleft
    obtain ⟨rest, hinput⟩ := hran.input
    obtain ⟨hfalling, rate, hrate, hclass⟩ := bitAt_eq_some hbit
    have hpos : ev.pos = pos := hran.pos (.inr rfl)
    have hband : InBand rate (ev.pos - f) v := by rw [hpos]; exact (classify_eq_some_iff ..).mp hclass
    exact ⟨by omega, by simpa using hsixteen, ev, rest, f, rate, v, hinput, hran.kind, hfalling, hrate, hband⟩
  | noBit pos =>
    have hsixteen : s.bitCount = 16 :=
      State.sixteen_of_finish_leaves (s := (s.consume.noteEdge pos).noteFalling pos) hreading hleft
    obtain ⟨hcount, -⟩ := hinv.reading hreading
    omega
  | resetFound => exact absurd (hreading.symm.trans hran.findReset_of_fallFr) (by decide)
  | refused | riseFr | noReset | riseRb | eos | setRate | startNoRate | start => exact absurd rfl hmoved

/-! ## No reset in ReadingBits -/

/-- Finishing a word emits no Bit record (R148). -/
theorem State.finish_emits_no_bit (s : State) (pos : Nat) :
    ∃ new, (s.finishIfComplete pos).out = s.out ++ new ∧ ∀ a ∈ new, a.level ≠ .bit := by
  by_cases hfull : s.bitCount = 16
  · exact ⟨_, State.finish_out_of_sixteen s pos hfull, by simp⟩
  · exact ⟨[], by rw [State.finish_out_of_ne_sixteen s pos hfull, List.append_nil], by simp⟩

theorem bitText_ne_reset (v : Bool) : bitText v ≠ "RESET" := by
  cases v <;> decide

/-- Settles O27: in ReadingBits the Bit records are those of classified bits, whose text is their digit. -/
theorem noResetDetectedInReadingBits : Obligations.NoResetDetectedInReadingBits := by
  intro s s' h hreading
  obtain ⟨ev, i, hran⟩ := step_ran h
  cases hran.effect with
  | resetFound => exact absurd (hreading.symm.trans hran.findReset_of_fallFr) (by decide)
  | bitRead pos f v =>
    obtain ⟨new, hout, hnew⟩ :=
      State.finish_emits_no_bit (((s.consume.noteEdge pos).appendBit f pos v).noteFalling pos) pos
    refine ⟨⟨f, pos, .bit, bitText v⟩ :: new, by simpa using hout, fun a ha hlevel => ?_⟩
    rcases List.mem_cons.mp ha with rfl | ha
    · exact bitText_ne_reset v
    · exact absurd hlevel (hnew a ha)
  | noBit pos =>
    obtain ⟨new, hout, hnew⟩ := State.finish_emits_no_bit ((s.consume.noteEdge pos).noteFalling pos) pos
    exact ⟨new, hout, fun a ha hlevel => absurd hlevel (hnew a ha)⟩
  | refused | riseFr | noReset | riseRb | eos | setRate | startNoRate | start => exact ⟨[], by simp, by simp⟩

end Sys2Proof.Machine
end

section
/-! What each instruction does by the acceptance table and the checks after it (R95, R180, R189), and the configuration
up to RUN (R110, R112, R212). First the table's three answers, for an admitted event and for an instruction. -/

namespace Sys2Proof.Machine

/-! ## The answers of the acceptance table -/

theorem accept_of_accepted {k : EventKind} {s : State} {body : State → Result} (hclear : s.refused = none)
    (h : acceptance s.phase k = .accepted) : accept k s body = body s.consume := by
  rw [accept_of_clear hclear]
  simp only [h]

theorem exec_of_acceptance_refused {i : Instr} {s : State} {c : RefusalCause} (hclear : s.refused = none)
    (h : acceptance s.phase (kindOfInstr i) = .refused c) : exec i s = .next (s.markRefused c) := by
  obtain ⟨body, hadmitted, -⟩ := exec_is_admitted i s
  rw [hadmitted, accept_of_clear hclear]
  simp only [h]

/-- Phase FAULT has a step for no instruction (R188). -/
theorem exec_of_fault {s : State} (hclear : s.refused = none) (hfault : s.phase = .fault) (i : Instr) :
    exec i s = .fault .stuckInFault := by
  obtain ⟨body, hadmitted, -⟩ := exec_is_admitted i s
  rw [hadmitted, accept_of_clear hclear]
  simp only [hfault, acceptance_fault]

/-- An accepted instruction answers a next state; only its order or its rate can still be refused (R187, R85). -/
theorem exec_of_accepted {i : Instr} {s : State} (hclear : s.refused = none)
    (h : acceptance s.phase (kindOfInstr i) = .accepted) :
    ∃ t, exec i s = .next t ∧
      (t.refused = none ∨ t.refused = some .orderViolation ∨ t.refused = some .invalidSampleRate) := by
  obtain ⟨body, hadmitted, hreserved | hbody⟩ := exec_is_admitted i s
  · rcases phase_of_accepted h with ⟨-, hkind⟩ | ⟨-, hkind⟩ <;> simp [hreserved] at hkind
  · rw [hadmitted, accept_of_accepted hclear h]
    exact hbody s.consume hclear

/-! ## The cells of the table -/

theorem acceptance_reserved {p : Phase} (h : p ≠ .fault) : acceptance p .reserved = .refused .reservedEventKind := by
  simp [acceptance, h]

theorem acceptance_idle_of_session_event {k : EventKind} (h : k ∈ [EventKind.rise, .fall, .eos]) :
    acceptance .idle k = .refused .phaseViolation := by
  revert h
  cases k <;> decide

theorem acceptance_run_of_configuration {k : EventKind} (h : k ∈ [EventKind.setRate, .start]) :
    acceptance .run k = .refused .phaseViolation := by
  revert h
  cases k <;> decide

theorem acceptance_idle_of_configuration {k : EventKind} (h : k ∈ [EventKind.setRate, .start]) :
    acceptance .idle k = .accepted := by
  revert h
  cases k <;> decide

theorem acceptance_run_of_session_event {k : EventKind} (h : k ∈ [EventKind.rise, .fall, .eos]) :
    acceptance .run k = .accepted := by
  revert h
  cases k <;> decide

/-! ## The table, instruction by instruction -/

theorem exec_of_reserved_kind {i : Instr} {s : State} (hclear : s.refused = none) (hlive : s.phase ≠ .fault)
    (hkind : kindOfInstr i = .reserved) : exec i s = .next (s.markRefused .reservedEventKind) :=
  exec_of_acceptance_refused hclear (by rw [hkind, acceptance_reserved hlive])

theorem exec_of_done {i : Instr} {s : State} (hclear : s.refused = none) (hdone : s.phase = .done)
    (hkind : kindOfInstr i ≠ .reserved) : exec i s = .next (s.markRefused .eventAfterEnd) :=
  exec_of_acceptance_refused hclear (by rw [hdone, acceptance_done, if_neg hkind])

theorem exec_session_event_of_idle {i : Instr} {s : State} (hclear : s.refused = none) (hidle : s.phase = .idle)
    (hkind : kindOfInstr i ∈ [EventKind.rise, .fall, .eos]) : exec i s = .next (s.markRefused .phaseViolation) :=
  exec_of_acceptance_refused hclear (by rw [hidle, acceptance_idle_of_session_event hkind])

theorem exec_configuration_of_run {i : Instr} {s : State} (hclear : s.refused = none) (hrun : s.phase = .run)
    (hkind : kindOfInstr i ∈ [EventKind.setRate, .start]) : exec i s = .next (s.markRefused .phaseViolation) :=
  exec_of_acceptance_refused hclear (by rw [hrun, acceptance_run_of_configuration hkind])

/-- Settles O43: each cell of the table, and what an accepted event can still be refused for. -/
theorem phasesAcceptByTable : Obligations.PhasesAcceptByTable := by
  intro i s hclear
  refine ⟨fun hfault => exec_of_fault hclear hfault i, exec_of_reserved_kind hclear, exec_of_done hclear,
    exec_session_event_of_idle hclear, exec_configuration_of_run hclear, ?_⟩
  rintro (⟨hidle, hkind⟩ | ⟨hrun, hkind⟩)
  · exact exec_of_accepted hclear (by rw [hidle, acceptance_idle_of_configuration hkind])
  · exact exec_of_accepted hclear (by rw [hrun, acceptance_run_of_session_event hkind])

/-- The four edge rows at one position, case by case. -/
theorem edge_cases {i : Instr} {pos : Nat} (h : i ∈ [Instr.riseFr pos, .fallFr pos, .riseRb pos, .fallRb pos]) :
    i = .riseFr pos ∨ i = .fallFr pos ∨ i = .riseRb pos ∨ i = .fallRb pos := by
  simpa using h

theorem kindOfInstr_of_edge {i : Instr} {pos : Nat}
    (h : i ∈ [Instr.riseFr pos, .fallFr pos, .riseRb pos, .fallRb pos]) :
    kindOfInstr i = .rise ∨ kindOfInstr i = .fall := by
  rcases edge_cases h with rfl | rfl | rfl | rfl <;> simp [kindOfInstr]

theorem kindOfInstr_of_configuration {i : Instr} {rate : Nat} (h : i ∈ [Instr.setRate rate, .start]) :
    kindOfInstr i ∈ [EventKind.setRate, .start] := by
  obtain rfl | rfl : i = .setRate rate ∨ i = .start := by simpa using h
  · simp [kindOfInstr]
  · simp [kindOfInstr]

/-- Settles O45: the mark and the phase decide before the order and the rate are looked at, whatever they are. -/
theorem checksApplyInOrder : Obligations.ChecksApplyInOrder := by
  intro s pos p code c
  refine ⟨exec_of_refused, exec_of_fault, fun hclear hlive => exec_of_reserved_kind hclear hlive rfl,
    fun hclear hdone _ _ i hi => exec_of_done hclear hdone ?_,
    fun hclear hdone i hi => exec_of_done hclear hdone ?_,
    fun hclear hidle _ _ i hi => exec_session_event_of_idle hclear hidle ?_,
    fun hclear hrun i hi => exec_configuration_of_run hclear hrun (kindOfInstr_of_configuration hi)⟩
  · rcases kindOfInstr_of_edge hi with hkind | hkind <;> simp [hkind]
  · have hkind := kindOfInstr_of_configuration hi
    intro hreserved
    simp [hreserved] at hkind
  · rcases kindOfInstr_of_edge hi with hkind | hkind <;> simp [hkind]

/-- Settles O42: the reserved row by phase, and the mark before it. -/
theorem reservedKindIsRefused : Obligations.ReservedKindIsRefused :=
  fun _ code => ⟨fun hclear hlive => exec_of_reserved_kind hclear hlive rfl,
    fun hclear hfault => exec_of_fault hclear hfault (.reserved code),
    fun _ hmarked => exec_of_refused hmarked (.reserved code)⟩

/-! ## Edges in RUN -/

/-- An edge that its phase accepts, but not after the last one, is refused for its order (R187). -/
theorem acceptEdge_of_late {k : EventKind} {pos p : Nat} {s : State} {body : State → Result}
    (hclear : s.refused = none) (h : acceptance s.phase k = .accepted) (hlast : s.lastPos = some p) (hlate : pos ≤ p) :
    acceptEdge k pos s body = .next (s.markRefused .orderViolation) := by
  have horder : ¬ inOrder s.lastPos pos = true := fun hin =>
    absurd ((inOrder_iff s pos).mp hin p hlast) (Nat.not_lt.mpr hlate)
  rw [acceptEdge, accept_of_accepted hclear h, if_neg horder]

/-- The four edge rows are edges of their kind (R95). -/
theorem exec_edge_is_acceptEdge {i : Instr} {pos : Nat}
    (h : i ∈ [Instr.riseFr pos, .fallFr pos, .riseRb pos, .fallRb pos]) (s : State) :
    ∃ body, exec i s = acceptEdge (kindOfInstr i) pos s body := by
  rcases edge_cases h with rfl | rfl | rfl | rfl
  · exact ⟨_, by rw [exec, execRiseFr, kindOfInstr]⟩
  · exact ⟨_, by rw [exec, execFallFr, kindOfInstr]⟩
  · exact ⟨_, by rw [exec, execRiseRb, kindOfInstr]⟩
  · exact ⟨_, by rw [exec, execFallRb, kindOfInstr]⟩

/-- Settles O44: RUN accepts RISE and FALL, so the order is the check that fails. -/
theorem edgeOutOfOrderIsRefused : Obligations.EdgeOutOfOrderIsRefused := by
  intro s pos p hclear hrun hlast hlate i hi
  have haccepted : acceptance s.phase (kindOfInstr i) = .accepted := by
    rw [hrun]
    rcases kindOfInstr_of_edge hi with hkind | hkind <;> rw [hkind] <;> rfl
  obtain ⟨body, hedge⟩ := exec_edge_is_acceptEdge hi s
  rw [hedge, acceptEdge_of_late hclear haccepted hlast hlate]
  rfl

/-- Settles O24: each edge row in each case of its test; finishing a word keeps the four fields. -/
theorem edgesInOrderNeverStop : Obligations.EdgesInOrderNeverStop := by
  intro s pos hs i hi
  obtain ⟨hclear, hrun, -⟩ := id hs
  rcases edge_cases hi with rfl | rfl | rfl | rfl
  · exact ⟨_, exec_riseFr_of_edgeReady hs, hclear, rfl, hrun, rfl⟩
  · cases hreset : resetStart s pos with
    | some r => exact ⟨_, exec_fallFr_of_reset hs hreset, hclear, rfl, hrun, rfl⟩
    | none => exact ⟨_, exec_fallFr_of_no_reset hs hreset, hclear, rfl, hrun, rfl⟩
  · exact ⟨_, exec_riseRb_of_edgeReady hs, hclear, rfl, hrun, rfl⟩
  · cases hbit : bitAt s pos with
    | some fv => exact ⟨_, exec_fallRb_of_bit hs hbit, by simp [hclear, hrun]⟩
    | none => exact ⟨_, exec_fallRb_of_no_bit hs hbit, by simp [hclear, hrun]⟩

/-! ## End of stream -/

/-- Settles O40: RUN accepts EOS; the other two phases refuse it by the table. -/
theorem eosEndsSession : Obligations.EosEndsSession := by
  intro s hclear
  refine ⟨fun hrun => ?_, fun hidle => exec_session_event_of_idle hclear hidle (by simp [kindOfInstr]),
    fun hdone => exec_of_done hclear hdone (by simp [kindOfInstr])⟩
  have haccepted : acceptance s.phase .eos = .accepted := by rw [hrun]; rfl
  rw [exec, execEos, accept_of_accepted hclear haccepted]
  rfl

/-! ## Configuration -/

theorem validRate_iff (rate : Nat) : validRate rate = true ↔ 1 ≤ rate := by
  simp [validRate]

/-- IDLE accepts SET_RATE, and the rate decides (R85, R110). -/
theorem exec_setRate_of_idle {s : State} (hclear : s.refused = none) (hidle : s.phase = .idle) (rate : Nat) :
    exec (.setRate rate) s =
      if validRate rate then .next (s.consume.putRate rate) else .next (s.markRefused .invalidSampleRate) := by
  have haccepted : acceptance s.phase .setRate = .accepted := by rw [hidle]; rfl
  rw [exec, execSetRate, accept_of_accepted hclear haccepted]

theorem exec_setRate_of_idle_of_valid {s : State} (hclear : s.refused = none) (hidle : s.phase = .idle) {rate : Nat}
    (hvalid : 1 ≤ rate) : exec (.setRate rate) s = .next (s.consume.putRate rate) := by
  rw [exec_setRate_of_idle hclear hidle, if_pos ((validRate_iff rate).mpr hvalid)]

theorem exec_setRate_zero_of_idle {s : State} (hclear : s.refused = none) (hidle : s.phase = .idle) :
    exec (.setRate 0) s = .next (s.markRefused .invalidSampleRate) := by
  rw [exec_setRate_of_idle hclear hidle, if_neg (by simp [validRate_iff])]

/-- Settles O10: the rate decides in IDLE, the phase in RUN. -/
theorem setRateWritesRate : Obligations.SetRateWritesRate := by
  intro s rate hclear
  refine ⟨fun hidle hvalid => exec_setRate_of_idle_of_valid hclear hidle hvalid, ?_,
    fun hrun => exec_configuration_of_run hclear hrun (by simp [kindOfInstr])⟩
  rintro hidle rfl
  exact exec_setRate_zero_of_idle hclear hidle

/-- With a rate START enters RUN (R112). -/
theorem exec_start_of_idle {s : State} {rate : Nat} (hclear : s.refused = none) (hidle : s.phase = .idle)
    (hrate : s.rate = some rate) : exec .start s = .next (s.consume.toPhase .run) := by
  have haccepted : acceptance s.phase .start = .accepted := by rw [hidle]; rfl
  rw [exec, execStart, accept_of_accepted hclear haccepted]
  simp only [State.consume_rate, hrate]

/-- Without a rate START takes the fault (R112, R181). -/
theorem exec_start_of_no_rate {s : State} (hclear : s.refused = none) (hidle : s.phase = .idle)
    (hnone : s.rate = none) : exec .start s = .next (s.consume.raiseFault .missingSampleRate) := by
  have haccepted : acceptance s.phase .start = .accepted := by rw [hidle]; rfl
  rw [exec, execStart, accept_of_accepted hclear haccepted]
  simp only [State.consume_rate, hnone]

/-- Settles O11: the rate is there, so IDLE leads to RUN, which refuses a second START. -/
theorem startWithRateEntersRun : Obligations.StartWithRateEntersRun := by
  intro s rate hclear hrate
  exact ⟨fun hidle => exec_start_of_idle hclear hidle hrate,
    fun hrun => exec_configuration_of_run hclear hrun (by simp [kindOfInstr])⟩

/-- Settles O12: the next state is in phase FAULT. -/
theorem startWithoutRateFaults : Obligations.StartWithoutRateFaults := by
  intro s hclear hidle hnone
  exact ⟨_, exec_start_of_no_rate hclear hidle hnone, rfl, exec_of_fault hclear rfl⟩

/-- Settles O13: the two events in turn, the first for the rate that the second asks for. -/
theorem bootReachesRun : Obligations.BootReachesRun := by
  intro rate events hrate
  have hconfigure : step (sessionOf (⟨0b011#3, 0, rate⟩ :: ⟨0b100#3, 0, 0⟩ :: events)) =
      .next { sessionOf (⟨0b100#3, 0, 0⟩ :: events) with rate := some rate, eventIndex := 1 } := by
    rw [step_of_input rfl, decode_by_kind]
    exact exec_setRate_of_idle_of_valid rfl rfl hrate
  have hstart : step { sessionOf (⟨0b100#3, 0, 0⟩ :: events) with rate := some rate, eventIndex := 1 } =
      .next { State.reset with phase := .run, rate := some rate, input := events, eventIndex := 2 } := by
    rw [step_of_input rfl, decode_by_kind]
    exact exec_start_of_idle rfl rfl rfl
  rw [run_succ_of_next hconfigure, run_succ_of_next hstart, run_zero]

/-! ## The step -/

/-- Settles O2: the rule of `step_of_input`. -/
theorem stepRunsDecodedEvent : Obligations.StepRunsDecodedEvent := fun _ _ _ => step_of_input

/-- Settles O3: without an event the step is `noEvent`, which names the stop of each phase. -/
theorem noEventNoStep : Obligations.NoEventNoStep := by
  intro s hempty hclear
  have hstep : step s = noEvent s := by simp only [step, hempty]
  rw [hstep]
  refine ⟨?_, fun hdone => ?_, fun hfault => ?_⟩
  · rintro (hidle | hrun)
    · simp only [noEvent, hclear, hidle]
    · simp only [noEvent, hclear, hrun]
  · simp only [noEvent, hclear, hdone]
  · simp only [noEvent, hclear, hfault]

/-- The decoder state in which a table word is fetched decodes it as its own context bit does (R83). -/
theorem decode_fetchContext (s : State) (w : Nat) :
    decode (fetchContext s w) (eventOfTableWord w) = decode (contextOfTableWord w) (eventOfTableWord w) := by
  cases hkind : kindOf (eventOfTableWord w).kind with
  | rise | fall => simp only [fetchContext, hkind, polarityOf]
  | eos | setRate | start | reserved => exact decode_of_not_edge (by simp [hkind]) (by simp [hkind]) _ _

/-- Settles O9: the word's event is placed first, and decodes there as the table word does. -/
theorem fetchWordRunsNext : Obligations.FetchWordRunsNext := by
  intro s nbits w hbits hkey
  refine ⟨decode (contextOfTableWord w) (eventOfTableWord w), if_pos ⟨hbits, hkey⟩, ?_⟩
  have hinput : (s.withFetchWord nbits w).input = eventOfTableWord w :: s.input := rfl
  have hstate : (s.withFetchWord nbits w).state = fetchContext s w := rfl
  rw [step_of_input hinput, hstate, decode_fetchContext]

end Sys2Proof.Machine
end

section
/-! What the block never reads: its earlier output (R45) and the events behind the next one (R72). One function adds
both to a state; every operation, every check and so every instruction commutes with it. -/

namespace Sys2Proof.Machine

/-- The state with earlier records before its output and later events behind those at its port. -/
def State.extend (earlier : List Annotation) (later : List Event) (s : State) : State :=
  { s with out := earlier ++ s.out, input := s.input ++ later }

theorem State.deliver_eq_extend (s : State) (ev : Event) : s.deliver ev = s.extend [] [ev] := rfl

theorem withEarlierOut_eq_extend (earlier : List Annotation) (s : State) :
    withEarlierOut earlier s = s.extend earlier [] := by
  simp [withEarlierOut, State.extend]

section
variable (earlier : List Annotation) (later : List Event) (s : State)

/-! ## The operations -/

@[simp] theorem State.extend_phase : (s.extend earlier later).phase = s.phase := rfl
@[simp] theorem State.extend_rate : (s.extend earlier later).rate = s.rate := rfl
@[simp] theorem State.extend_state : (s.extend earlier later).state = s.state := rfl
@[simp] theorem State.extend_bitCount : (s.extend earlier later).bitCount = s.bitCount := rfl
@[simp] theorem State.extend_refused : (s.extend earlier later).refused = s.refused := rfl
@[simp] theorem State.extend_lastPos : (s.extend earlier later).lastPos = s.lastPos := rfl

/-- With an event at the port, it is that event that is taken. -/
theorem State.extend_consume (h : s.input ≠ []) :
    (s.extend earlier later).consume = s.consume.extend earlier later := by
  simp [State.consume, State.extend, List.tail_append_of_ne_nil h]

theorem State.extend_emit (a : Annotation) : (s.extend earlier later).emit a = (s.emit a).extend earlier later := by
  simp [State.emit, State.extend]

theorem State.extend_beginFrame (r pos : Nat) :
    (s.extend earlier later).beginFrame r pos = (s.beginFrame r pos).extend earlier later := by
  simp [State.beginFrame, State.emit, State.extend]

theorem State.extend_appendBit (f pos : Nat) (v : Bool) :
    (s.extend earlier later).appendBit f pos v = (s.appendBit f pos v).extend earlier later := by
  simp [State.appendBit, State.emit, State.extend]

theorem State.extend_completeWord (pos : Nat) :
    (s.extend earlier later).completeWord pos = (s.completeWord pos).extend earlier later := by
  simp [State.completeWord, State.emit, State.extend]

theorem State.extend_finishIfComplete (pos : Nat) :
    (s.extend earlier later).finishIfComplete pos = (s.finishIfComplete pos).extend earlier later := by
  by_cases hfull : s.bitCount = 16
  · rw [State.finish_of_sixteen s pos hfull, State.finish_of_sixteen (s.extend earlier later) pos hfull,
      State.extend_completeWord]
  · rw [State.finish_of_ne_sixteen s pos hfull, State.finish_of_ne_sixteen (s.extend earlier later) pos hfull]

/-! ## The checks -/

variable {earlier later s}

/-- The checks of every event read neither, so an event's outcome is extended if its rule's is. -/
theorem accept_extend {k : EventKind} {body body' : State → Result} (h : s.input ≠ [])
    (hbody : body' (s.consume.extend earlier later) = mapNext (State.extend earlier later) (body s.consume)) :
    accept k (s.extend earlier later) body' = mapNext (State.extend earlier later) (accept k s body) := by
  cases hmark : s.refused with
  | some c => rw [accept_of_refused hmark, accept_of_refused (s := s.extend earlier later) hmark, mapNext]
  | none =>
    rw [accept_of_clear hmark, accept_of_clear (s := s.extend earlier later) hmark, State.extend_phase]
    cases acceptance s.phase k with
    | stuck => rfl
    | refused c => rfl
    | accepted => simp only [State.extend_consume _ _ _ h, hbody]

/-- The order of an edge, too, is checked without them. -/
theorem acceptEdge_extend {k : EventKind} {pos : Nat} {body : State → Result} (h : s.input ≠ [])
    (hbody : ∀ t, body (t.extend earlier later) = mapNext (State.extend earlier later) (body t)) :
    acceptEdge k pos (s.extend earlier later) body =
      mapNext (State.extend earlier later) (acceptEdge k pos s body) := by
  refine accept_extend h ?_
  by_cases horder : inOrder s.lastPos pos = true
  · rw [State.extend_lastPos, if_pos horder, if_pos horder]
    exact hbody (s.consume.noteEdge pos)
  · rw [State.extend_lastPos, if_neg horder, if_neg horder]
    rfl

/-! ## The instructions and the step -/

theorem exec_extend (h : s.input ≠ []) (i : Instr) :
    exec i (s.extend earlier later) = mapNext (State.extend earlier later) (exec i s) := by
  cases i with
  | riseFr pos =>
    simp only [exec, execRiseFr]
    exact acceptEdge_extend h fun t => rfl
  | fallFr pos =>
    simp only [exec, execFallFr]
    refine acceptEdge_extend h fun t => ?_
    have hsame : resetStart (t.extend earlier later) pos = resetStart t pos := rfl
    rw [hsame]
    cases resetStart t pos with
    | some r => simp only [State.extend_beginFrame, mapNext]
    | none => rfl
  | riseRb pos =>
    simp only [exec, execRiseRb]
    exact acceptEdge_extend h fun t => rfl
  | fallRb pos =>
    simp only [exec, execFallRb]
    refine acceptEdge_extend h fun t => ?_
    have hsame : bitAt (t.extend earlier later) pos = bitAt t pos := rfl
    have hfalling (u : State) :
        (u.extend earlier later).noteFalling pos = (u.noteFalling pos).extend earlier later := rfl
    rw [hsame]
    cases bitAt t pos with
    | some fv => simp only [State.extend_appendBit, hfalling, State.extend_finishIfComplete, mapNext]
    | none => simp only [hfalling, State.extend_finishIfComplete, mapNext]
  | eos =>
    simp only [exec, execEos]
    exact accept_extend h rfl
  | setRate rate =>
    simp only [exec, execSetRate]
    refine accept_extend h ?_
    by_cases hvalid : validRate rate = true
    · rw [if_pos hvalid, if_pos hvalid]; rfl
    · rw [if_neg hvalid, if_neg hvalid]; rfl
  | start =>
    simp only [exec, execStart]
    refine accept_extend h ?_
    rw [State.extend_rate]
    cases s.consume.rate <;> rfl
  | reserved code =>
    simp only [exec, execReserved]
    exact accept_extend h rfl

theorem step_extend (h : s.input ≠ []) :
    step (s.extend earlier later) = mapNext (State.extend earlier later) (step s) := by
  obtain ⟨ev, rest, hinput⟩ := List.exists_cons_of_ne_nil h
  have hextended : (s.extend earlier later).input = ev :: (rest ++ later) := by simp [State.extend, hinput]
  rw [step_of_input hinput, step_of_input hextended, State.extend_state, exec_extend h]

end

/-! ## The statements -/

/-- Settles O5: the delivered event is one more behind those at the port. -/
theorem laterEventsDoNotMatter : Obligations.LaterEventsDoNotMatter :=
  fun _ ev h => step_extend (earlier := []) (later := [ev]) h

/-- A stop has no next state to change. -/
theorem mapNext_noEvent (f : State → State) (s : State) : mapNext f (noEvent s) = noEvent s := by
  cases hs : noEvent s with
  | next t => exact absurd hs (noEvent_ne_next s t)
  | fault | refused => rfl

/-- Settles O38: with an event at the port the step extends; without one the stop is named by the mark and the phase. -/
theorem outputIsNeverRead : Obligations.OutputIsNeverRead := by
  intro s earlier
  have hextend : withEarlierOut earlier = State.extend earlier [] := funext (withEarlierOut_eq_extend earlier)
  rw [hextend]
  by_cases hempty : s.input = []
  · have hstep : step s = noEvent s := by simp only [step, hempty]
    have hstep' : step (s.extend earlier []) = noEvent s := by simp [step, State.extend, hempty, noEvent]
    rw [hstep, hstep', mapNext_noEvent]
  · exact step_extend hempty

/-- Settles O39: by induction on the run, step by step as in O38. -/
theorem runsIgnoreEarlierOutput : Obligations.RunsIgnoreEarlierOutput := by
  intro k
  induction k with
  | zero =>
    intro s s' earlier hrun
    rw [run_zero_next hrun, run_zero]
  | succ k ih =>
    intro s s' earlier hrun
    obtain ⟨t, hstep, hrest⟩ := run_succ_next hrun
    have hstep' : step (withEarlierOut earlier s) = .next (withEarlierOut earlier t) := by
      rw [outputIsNeverRead, hstep, mapNext]
    rw [run_succ_of_next hstep']
    exact ih t s' earlier hrest

end Sys2Proof.Machine
end

section
/-! Times and the command table: the comparisons are exact (R14), what a rate resolves (R218), the reset threshold in
microseconds (R127), and the codes that the table does not list (R63, R66). -/

namespace Sys2Proof.Machine

/-! ## Times -/

/-- Settles O31: the whole-number comparison is the rational one, multiplied out. -/
theorem comparisonsAreExact : Obligations.ComparisonsAreExact := by
  intro rate d T hrate
  exact ⟨lt_durUs_iff hrate d T, durUs_lt_iff hrate d T,
    (longer_iff rate d T).trans (lt_durUs_iff hrate d T).symm,
    (shorter_iff rate d T).trans (durUs_lt_iff hrate d T).symm⟩

/-- Over 500 Hz a band is wider than a sample, so the first count over its lower bound is under its upper one. -/
theorem inBand_first_over_lower {rate : Nat} (hrate : rate > 500) (v : Bool) :
    InBand rate ((if v then 6000 else 3000) * rate / 1000000 + 1) v := by
  cases v with
  | false => simp only [InBand, Bool.false_eq_true, if_false]; omega
  | true => simp only [InBand, if_true]; omega

/-- Up to 125 Hz a sample lasts at least 8000 µs, the upper end of both bands. -/
theorem not_inBand_of_coarse_rate {rate : Nat} (hrate : rate ≤ 125) (d : Nat) (v : Bool) : ¬ InBand rate d v := by
  cases v with
  | false => simp only [InBand, Bool.false_eq_true, if_false]; omega
  | true => simp only [InBand, if_true]; omega

/-- So no interval is classified (R142). -/
theorem classify_of_coarse_rate {rate : Nat} (hrate : rate ≤ 125) (d : Nat) : classify rate d = none :=
  (classify_eq_none_iff ..).mpr ⟨not_inBand_of_coarse_rate hrate d false, not_inBand_of_coarse_rate hrate d true⟩

/-- Settles O33: the bands by their width in samples; at 1 Hz one sample is over the reset threshold. -/
theorem rateResolvesBands : Obligations.RateResolvesBands := by
  refine ⟨fun rate hrate => ⟨?_, ?_⟩, classify_of_coarse_rate (by decide), classify_of_coarse_rate (by decide),
    fun d hd => ?_⟩
  · exact ⟨_, (classify_eq_some_iff ..).mpr (inBand_first_over_lower hrate false)⟩
  · exact ⟨_, (classify_eq_some_iff ..).mpr (inBand_first_over_lower hrate true)⟩
  · rw [isReset_iff]
    omega

/-- Settles O17: the two cases of the reset test, whose threshold is that time in whole numbers. -/
theorem resetAnnotatedExactlyOverThreshold : Obligations.ResetAnnotatedExactlyOverThreshold := by
  intro s s' pos r rate hs hrate hsome hrising hexec
  have hthreshold : durUs rate (pos - r) > 4000 ↔ (pos - r) * 1000000 > 4000 * rate :=
    lt_durUs_iff hrate (pos - r) 4000
  obtain ⟨hlong, hshort, -⟩ := fallInFindResetTestsHighPhase s pos rate hs hsome
  rw [hthreshold]
  constructor
  · intro hover
    obtain rfl := Host.Outcome.next.inj ((hlong r hrising hover).symm.trans hexec)
    rfl
  · intro hunder
    obtain rfl := Host.Outcome.next.inj ((hshort r hrising hunder).symm.trans hexec)
    rfl

/-! ## The command table -/

/-- A code that no row defines reads the entry that the source does not give (R63, R66). -/
theorem cmdRead_of_not_defined {w : CmdWord} (h : w ∉ tableDefinitions.map Prod.fst) :
    cmdRead w = (Config.unlistedEntry w).getD defaultText := by
  simp only [cmdRead, cmdTable, lastDefinition_eq_none_iff.mpr h]

/-- The codes that R64 lists. -/
def listedCodes : List CmdWord := [0x1000#16, 0x1080#16, 0x8044#16, 0x8045#16, 0x8084#16, 0x857b#16, 0x85fb#16]

/-- The rows define the overridden codes first and then the listed ones, which hold those two again (R65). -/
theorem tableDefinitions_codes : tableDefinitions.map Prod.fst = 0x8044#16 :: 0x8045#16 :: listedCodes := rfl

/-- A code that R64 does not list has no row. -/
theorem not_defined_of_unlisted {w : CmdWord} (h : w ∉ listedCodes) : w ∉ tableDefinitions.map Prod.fst := by
  rw [tableDefinitions_codes, List.mem_cons, List.mem_cons]
  rintro (rfl | rfl | hlisted)
  · exact h (by decide)
  · exact h (by decide)
  · exact h hlisted

/-- Settles O36: at an unlisted code the free entry is read, whichever it is. -/
theorem unlistedCommandsAreOpen : Obligations.UnlistedCommandsAreOpen := by
  intro w hunlisted
  have hread := cmdRead_of_not_defined (not_defined_of_unlisted hunlisted)
  constructor
  · intro text hentry
    rw [hread, hentry, Option.getD_some]
  · intro hentry
    rw [hread, hentry, Option.getD_none]
    rfl

end Sys2Proof.Machine
end
